-- ==== Sys2Proof/Word.lean ====
section
/-! DEFINITION. Words, bytes and register indices of the MARS-LE core, and the three readings of a 32-bit pattern
that the spec's notation uses (00_scope.md R11). -/

namespace Sys2Proof

/-- A 32-bit pattern: a register, a memory word, the PC, an instruction word (00_scope.md R7, R11). -/
abbrev Word := BitVec 32

/-- The host's byte-level unit of memory and of the emit log. -/
abbrev Byte := BitVec 8

/-- A 5-bit register field of an instruction, which is a register's index (30_encoding.md R107). -/
abbrev RegIdx := BitVec 5

/-- `uint(v)`: the pattern read as an unsigned integer (00_scope.md R11). -/
abbrev uint (v : Word) : Nat := v.toNat

/-- `sint(v)`: the pattern read as a two's-complement signed integer (00_scope.md R11). -/
abbrev sint (v : Word) : Int := v.toInt

/-- `wrap32(n)`: a mathematical integer modulo 2^32 (00_scope.md R11). -/
abbrev wrap32 (n : Int) : Word := BitVec.ofInt 32 n

end Sys2Proof
end

