-- ==== Sys2Proof/Machine/Flags.lean ====
section
/-! DEFINITION. The hardware has no flag and no condition code (10_state.md R30). Its comparisons and its other value
functions, each written to a general register or fed to a branch directly, stand here. -/

namespace Sys2Proof.Machine

/-- A comparison's 32-bit result: `0x00000001` or `0x00000000` (41_alu_register.md R176; 43_load_store.md R205). -/
def conditionWord (b : Bool) : Word := if b then 0x00000001#32 else 0x00000000#32

/-- `sint(a) < sint(b)` (41_alu_register.md R176). -/
def signedLess (a b : Word) : Bool := decide (sint a < sint b)

/-- `sint(v) < 0` (43_load_store.md R205). -/
def isNegative (v : Word) : Bool := decide (sint v < 0)

/-- The signed clamp to 0 .. 255 (41_alu_register.md R179). -/
def clampByte (x : Word) : Word :=
  if sint x < 0 then 0x00000000#32 else if 255 < sint x then 0x000000FF#32 else x

/-- The pack of two low halves (41_alu_register.md R177). -/
def pack (a b : Word) : Word := ((a &&& 0x0000FFFF#32) <<< 16) ||| (b &&& 0x0000FFFF#32)

/-- The mix: shift, exclusive-or, then add; the right shift is logical (41_alu_register.md R178). -/
def mix (a b : Word) : Word := (a ^^^ (b <<< 3)) + (b >>> 2)

end Sys2Proof.Machine
end

