-- ==== Sys2Proof/Syntax.lean ====
section
/-! DEFINITION. The 25 instructions of 30_encoding.md R108, each with the ordered operand list of 40_decoder.md R148:
register operands are 5-bit indices and immediates are 32-bit patterns, already extended (40_decoder.md R147). -/

namespace Sys2Proof

/-- The template identities, in the row order of 30_encoding.md R108. -/
inductive InstrId where
  | add | sub | and | or | xor | slt | craft | brew | smelt
  | j | beq | bne | addi | andi | ori | lw | sw
  | mine | place | ifmob | invld | invst | hotbar | chat | sprint
deriving DecidableEq, Repr

/-- A Decoded Instruction: the template's identity and its operands (40_decoder.md R147, R148). -/
inductive Instr where
  | add (rd rs rt : RegIdx)
  | sub (rd rs rt : RegIdx)
  | and (rd rs rt : RegIdx)
  | or (rd rs rt : RegIdx)
  | xor (rd rs rt : RegIdx)
  | slt (rd rs rt : RegIdx)
  | craft (rd rs rt : RegIdx)
  | brew (rd rs rt : RegIdx)
  | smelt (rd rs : RegIdx)
  | j (tgt : Word)
  | beq (rs rt : RegIdx) (disp : Word)
  | bne (rs rt : RegIdx) (disp : Word)
  | addi (rt rs : RegIdx) (simm : Word)
  | andi (rt rs : RegIdx) (zimm : Word)
  | ori (rt rs : RegIdx) (zimm : Word)
  | lw (rt : RegIdx) (off : Word) (rs : RegIdx)
  | sw (rt : RegIdx) (off : Word) (rs : RegIdx)
  | mine (rt : RegIdx) (off : Word) (rs : RegIdx)
  | place (rt : RegIdx) (off : Word) (rs : RegIdx)
  | ifmob (rt : RegIdx) (off : Word) (rs : RegIdx)
  | invld (rt : RegIdx) (off : Word) (rs : RegIdx)
  | invst (rt : RegIdx) (off : Word) (rs : RegIdx)
  | hotbar (simm : Word)
  | chat (rs : RegIdx)
  | sprint (rs : RegIdx) (disp : Word)
deriving DecidableEq, Repr

/-- Which template an instruction belongs to. -/
def Instr.id : Instr → InstrId
  | .add _ _ _ => .add
  | .sub _ _ _ => .sub
  | .and _ _ _ => .and
  | .or _ _ _ => .or
  | .xor _ _ _ => .xor
  | .slt _ _ _ => .slt
  | .craft _ _ _ => .craft
  | .brew _ _ _ => .brew
  | .smelt _ _ => .smelt
  | .j _ => .j
  | .beq _ _ _ => .beq
  | .bne _ _ _ => .bne
  | .addi _ _ _ => .addi
  | .andi _ _ _ => .andi
  | .ori _ _ _ => .ori
  | .lw _ _ _ => .lw
  | .sw _ _ _ => .sw
  | .mine _ _ _ => .mine
  | .place _ _ _ => .place
  | .ifmob _ _ _ => .ifmob
  | .invld _ _ _ => .invld
  | .invst _ _ _ => .invst
  | .hotbar _ => .hotbar
  | .chat _ => .chat
  | .sprint _ _ => .sprint

end Sys2Proof
end

