-- ==== Sys2Proof/WellFormed.lean ====
section
/-! DEFINITION. Which operand values an encoding can carry (30_encoding.md R106): a register operand always fits its
5-bit field; an immediate must be the extension of its 16-bit or 26-bit field. -/

namespace Sys2Proof

/-- The pattern is `sext_16` of its own low 16 bits. -/
def isSext16 (v : Word) : Bool := v == (v.extractLsb' 0 16).signExtend 32

/-- The pattern is `zext_16` of its own low 16 bits. -/
def isZext16 (v : Word) : Bool := v == (v.extractLsb' 0 16).setWidth 32

/-- The pattern is `zext_26` of its own low 26 bits. -/
def isZext26 (v : Word) : Bool := v == (v.extractLsb' 0 26).setWidth 32

/-- The instruction's immediate is one that its template can extract (30_encoding.md R106; 40_decoder.md R148). -/
def Instr.wellFormed : Instr → Bool
  | .add _ _ _ => true
  | .sub _ _ _ => true
  | .and _ _ _ => true
  | .or _ _ _ => true
  | .xor _ _ _ => true
  | .slt _ _ _ => true
  | .craft _ _ _ => true
  | .brew _ _ _ => true
  | .smelt _ _ => true
  | .j tgt => isZext26 tgt
  | .beq _ _ disp => isSext16 disp
  | .bne _ _ disp => isSext16 disp
  | .addi _ _ simm => isSext16 simm
  | .andi _ _ zimm => isZext16 zimm
  | .ori _ _ zimm => isZext16 zimm
  | .lw _ off _ => isSext16 off
  | .sw _ off _ => isSext16 off
  | .mine _ off _ => isSext16 off
  | .place _ off _ => isSext16 off
  | .ifmob _ off _ => isSext16 off
  | .invld _ off _ => isSext16 off
  | .invst _ off _ => isSext16 off
  | .hotbar simm => isSext16 simm
  | .chat _ => true
  | .sprint _ disp => isSext16 disp

end Sys2Proof
end

