-- ==== Sys2Proof/Decode.lean ====
section
/-! DEFINITION. The instruction decoder (40_decoder.md): the template table, the bit-exact match, the field extraction,
the two-level view, the conflict test of the table; then the encoder, written from the formats and the opcode map of
30_encoding.md. -/

namespace Sys2Proof

/-! ### Fields and immediates (00_scope.md R12, R14; 30_encoding.md R101, R106) -/

/-- `sext_16`. -/
def sext16 (v : BitVec 16) : Word := v.signExtend 32

/-- `zext_16`. -/
def zext16 (v : BitVec 16) : Word := v.setWidth 32

/-- `zext_26`. -/
def zext26 (v : BitVec 26) : Word := v.setWidth 32

/-- `op = w[31:26]`. -/
def fieldOp (w : Word) : BitVec 6 := w.extractLsb' 26 6

/-- `rs = w[25:21]`. -/
def fieldRs (w : Word) : RegIdx := w.extractLsb' 21 5

/-- `rt = w[20:16]`. -/
def fieldRt (w : Word) : RegIdx := w.extractLsb' 16 5

/-- `rd = w[15:11]`. -/
def fieldRd (w : Word) : RegIdx := w.extractLsb' 11 5

/-- `sh = w[10:6]`. -/
def fieldSh (w : Word) : BitVec 5 := w.extractLsb' 6 5

/-- `fn = w[5:0]`. -/
def fieldFn (w : Word) : BitVec 6 := w.extractLsb' 0 6

/-- `imm16 = w[15:0]`. -/
def fieldImm (w : Word) : BitVec 16 := w.extractLsb' 0 16

/-- `tgt26 = w[25:0]`. -/
def fieldTgt (w : Word) : BitVec 26 := w.extractLsb' 0 26

/-! ### The template table (40_decoder.md R141; 30_encoding.md R108) -/

/-- One row of the table: an identity, the fixed positions and their values (40_decoder.md R141). The extraction recipe
is `extract` at the identity. -/
structure Template where
  /-- The mnemonic, as an element of the 25-value enumeration. -/
  id : InstrId
  /-- 1 at each fixed position. -/
  mask : Word
  /-- The fixed values, 0 at variable positions. -/
  pattern : Word
deriving DecidableEq, Repr

/-- The `mask` and `match` columns of 30_encoding.md R108. -/
def template : InstrId → Template
  | .add => ⟨.add, 0xFC0007FF#32, 0x00000020#32⟩
  | .sub => ⟨.sub, 0xFC0007FF#32, 0x00000022#32⟩
  | .and => ⟨.and, 0xFC0007FF#32, 0x00000024#32⟩
  | .or => ⟨.or, 0xFC0007FF#32, 0x00000025#32⟩
  | .xor => ⟨.xor, 0xFC0007FF#32, 0x00000026#32⟩
  | .slt => ⟨.slt, 0xFC0007FF#32, 0x0000002A#32⟩
  | .craft => ⟨.craft, 0xFC0007FF#32, 0x00000030#32⟩
  | .brew => ⟨.brew, 0xFC0007FF#32, 0x00000031#32⟩
  | .smelt => ⟨.smelt, 0xFC1F07FF#32, 0x00000032#32⟩
  | .j => ⟨.j, 0xFC000000#32, 0x08000000#32⟩
  | .beq => ⟨.beq, 0xFC000000#32, 0x10000000#32⟩
  | .bne => ⟨.bne, 0xFC000000#32, 0x14000000#32⟩
  | .addi => ⟨.addi, 0xFC000000#32, 0x20000000#32⟩
  | .andi => ⟨.andi, 0xFC000000#32, 0x30000000#32⟩
  | .ori => ⟨.ori, 0xFC000000#32, 0x34000000#32⟩
  | .lw => ⟨.lw, 0xFC000000#32, 0x8C000000#32⟩
  | .sw => ⟨.sw, 0xFC000000#32, 0xAC000000#32⟩
  | .mine => ⟨.mine, 0xFC000000#32, 0xC0000000#32⟩
  | .place => ⟨.place, 0xFC000000#32, 0xC4000000#32⟩
  | .ifmob => ⟨.ifmob, 0xFC000000#32, 0xC8000000#32⟩
  | .invld => ⟨.invld, 0xFC000000#32, 0xCC000000#32⟩
  | .invst => ⟨.invst, 0xFC000000#32, 0xD0000000#32⟩
  | .hotbar => ⟨.hotbar, 0xFFFF0000#32, 0xD4000000#32⟩
  | .chat => ⟨.chat, 0xFC1FFFFF#32, 0xD8000000#32⟩
  | .sprint => ⟨.sprint, 0xFC1F0000#32, 0xDC000000#32⟩

/-- The rows of 30_encoding.md R108, 1 `add` to 25 `sprint`, in that order. -/
def rowOrder : List InstrId :=
  [.add, .sub, .and, .or, .xor, .slt, .craft, .brew, .smelt, .j, .beq, .bne, .addi] ++
  [.andi, .ori, .lw, .sw, .mine, .place, .ifmob, .invld, .invst, .hotbar, .chat, .sprint]

/-- Whether the template is in the table: `invld` and `invst` only when the Inventory is present (40_decoder.md R141). -/
def InstrId.present (invPresent : Bool) : InstrId → Bool
  | .invld => invPresent
  | .invst => invPresent
  | .add => true
  | .sub => true
  | .and => true
  | .or => true
  | .xor => true
  | .slt => true
  | .craft => true
  | .brew => true
  | .smelt => true
  | .j => true
  | .beq => true
  | .bne => true
  | .addi => true
  | .andi => true
  | .ori => true
  | .lw => true
  | .sw => true
  | .mine => true
  | .place => true
  | .ifmob => true
  | .hotbar => true
  | .chat => true
  | .sprint => true

/-- The template table: 25 rows, or 23 when the Inventory is absent (40_decoder.md R141). -/
def templateTable (invPresent : Bool) : List Template :=
  (rowOrder.filter (InstrId.present invPresent)).map template

/-! ### Match and extraction (40_decoder.md R142, R143, R148, R149) -/

/-- A word matches a row exactly when `(w & mask) = match` (40_decoder.md R142). -/
def Template.matches (t : Template) (w : Word) : Bool := w &&& t.mask == t.pattern

/-- The first row that matches, in table order (40_decoder.md R143). -/
def matchRow (table : List Template) (w : Word) : Option Template := table.find? (·.matches w)

/-- Field extraction per template (40_decoder.md R148). -/
def extract (id : InstrId) (w : Word) : Instr :=
  match id with
  | .add => .add (fieldRd w) (fieldRs w) (fieldRt w)
  | .sub => .sub (fieldRd w) (fieldRs w) (fieldRt w)
  | .and => .and (fieldRd w) (fieldRs w) (fieldRt w)
  | .or => .or (fieldRd w) (fieldRs w) (fieldRt w)
  | .xor => .xor (fieldRd w) (fieldRs w) (fieldRt w)
  | .slt => .slt (fieldRd w) (fieldRs w) (fieldRt w)
  | .craft => .craft (fieldRd w) (fieldRs w) (fieldRt w)
  | .brew => .brew (fieldRd w) (fieldRs w) (fieldRt w)
  | .smelt => .smelt (fieldRd w) (fieldRs w)
  | .j => .j (zext26 (fieldTgt w))
  | .beq => .beq (fieldRs w) (fieldRt w) (sext16 (fieldImm w))
  | .bne => .bne (fieldRs w) (fieldRt w) (sext16 (fieldImm w))
  | .addi => .addi (fieldRt w) (fieldRs w) (sext16 (fieldImm w))
  | .andi => .andi (fieldRt w) (fieldRs w) (zext16 (fieldImm w))
  | .ori => .ori (fieldRt w) (fieldRs w) (zext16 (fieldImm w))
  | .lw => .lw (fieldRt w) (sext16 (fieldImm w)) (fieldRs w)
  | .sw => .sw (fieldRt w) (sext16 (fieldImm w)) (fieldRs w)
  | .mine => .mine (fieldRt w) (sext16 (fieldImm w)) (fieldRs w)
  | .place => .place (fieldRt w) (sext16 (fieldImm w)) (fieldRs w)
  | .ifmob => .ifmob (fieldRt w) (sext16 (fieldImm w)) (fieldRs w)
  | .invld => .invld (fieldRt w) (sext16 (fieldImm w)) (fieldRs w)
  | .invst => .invst (fieldRt w) (sext16 (fieldImm w)) (fieldRs w)
  | .hotbar => .hotbar (sext16 (fieldImm w))
  | .chat => .chat (fieldRs w)
  | .sprint => .sprint (fieldRs w) (sext16 (fieldImm w))

/-- The decode function, total on all words; `none` is `Miss` (40_decoder.md R149). -/
def decode (invPresent : Bool) (w : Word) : Option Instr :=
  (matchRow (templateTable invPresent) w).map fun t => extract t.id w

/-- The instruction the decoder reads from a word whose low `nbits` bits are those of `w`, in the canonical configuration,
which has the Inventory (20_memory.md R76). An instruction is one 32-bit word, handed over as a value (30_encoding.md
R100). -/
def decodeTableWord (nbits w : Nat) : Option Instr := decode true (BitVec.ofNat 32 (w % 2 ^ nbits))

/-! ### The two-level view (40_decoder.md R144; 30_encoding.md R109 to R111) -/

/-- The primary opcode map, for `op` other than 0 (30_encoding.md R109). -/
def opcodeMap : Nat → Option InstrId
  | 0x02 => some .j
  | 0x04 => some .beq
  | 0x05 => some .bne
  | 0x08 => some .addi
  | 0x0C => some .andi
  | 0x0D => some .ori
  | 0x23 => some .lw
  | 0x2B => some .sw
  | 0x30 => some .mine
  | 0x31 => some .place
  | 0x32 => some .ifmob
  | 0x33 => some .invld
  | 0x34 => some .invst
  | 0x35 => some .hotbar
  | 0x36 => some .chat
  | 0x37 => some .sprint
  | _ => none

/-- The funct map under `op = 000000` (30_encoding.md R110). -/
def functMap : Nat → Option InstrId
  | 0x20 => some .add
  | 0x22 => some .sub
  | 0x24 => some .and
  | 0x25 => some .or
  | 0x26 => some .xor
  | 0x2A => some .slt
  | 0x30 => some .craft
  | 0x31 => some .brew
  | 0x32 => some .smelt
  | _ => none

/-- The fixed-zero fields of a template are zero in the word (30_encoding.md R111). -/
def fixedZero (id : InstrId) (w : Word) : Bool :=
  match id with
  | .add => fieldSh w == 0#5
  | .sub => fieldSh w == 0#5
  | .and => fieldSh w == 0#5
  | .or => fieldSh w == 0#5
  | .xor => fieldSh w == 0#5
  | .slt => fieldSh w == 0#5
  | .craft => fieldSh w == 0#5
  | .brew => fieldSh w == 0#5
  | .smelt => fieldSh w == 0#5 && fieldRt w == 0#5
  | .j => true
  | .beq => true
  | .bne => true
  | .addi => true
  | .andi => true
  | .ori => true
  | .lw => true
  | .sw => true
  | .mine => true
  | .place => true
  | .ifmob => true
  | .invld => true
  | .invst => true
  | .hotbar => fieldRs w == 0#5 && fieldRt w == 0#5
  | .chat => fieldRt w == 0#5 && fieldImm w == 0#16
  | .sprint => fieldRt w == 0#5

/-- The two-level decoder a hardware may use: `op` first, then `fn`, then the fixed-zero fields (40_decoder.md R144). -/
def decodeTwoLevel (invPresent : Bool) (w : Word) : Option Instr :=
  match (if fieldOp w == 0#6 then functMap (fieldFn w).toNat else opcodeMap (fieldOp w).toNat) with
  | none => none
  | some id => if id.present invPresent && fixedZero id w then some (extract id w) else none

/-! ### The build-time check of a table (40_decoder.md R145; 60_exceptions.md R256) -/

/-- Two rows overlap: no bit that both fix differs (40_decoder.md R145). -/
def Template.overlaps (a b : Template) : Bool := (a.pattern ^^^ b.pattern) &&& a.mask &&& b.mask == 0#32

/-- A pair of distinct rows that overlap, if there is one: RegistrationConflict names these two templates
(60_exceptions.md R250, R256). DESIGN CHOICE (log entry 20): where several pairs overlap, the spec says neither which pair
is named nor in which order its two templates stand; here it is the first pair in table order, the earlier row first. -/
def tableConflict : List Template → Option (Template × Template)
  | [] => none
  | a :: rest =>
    match rest.find? (fun b => a.overlaps b) with
    | some b => some (a, b)
    | none => tableConflict rest

/-! ### The decoder's outputs as hardware (40_decoder.md R147) -/

/-- The extended immediate of a row that has one (40_decoder.md R148). -/
def immediateOf : Instr → Option Word
  | .add _ _ _ => none
  | .sub _ _ _ => none
  | .and _ _ _ => none
  | .or _ _ _ => none
  | .xor _ _ _ => none
  | .slt _ _ _ => none
  | .craft _ _ _ => none
  | .brew _ _ _ => none
  | .smelt _ _ => none
  | .j tgt => some tgt
  | .beq _ _ disp => some disp
  | .bne _ _ disp => some disp
  | .addi _ _ simm => some simm
  | .andi _ _ zimm => some zimm
  | .ori _ _ zimm => some zimm
  | .lw _ off _ => some off
  | .sw _ off _ => some off
  | .mine _ off _ => some off
  | .place _ off _ => some off
  | .ifmob _ off _ => some off
  | .invld _ off _ => some off
  | .invst _ off _ => some off
  | .hotbar simm => some simm
  | .chat _ => none
  | .sprint _ disp => some disp

/-- The row number, 1 to 25, of 30_encoding.md R108. -/
def InstrId.row (id : InstrId) : Nat := rowOrder.findIdx (· == id) + 1

/-- The decoder's output signals (40_decoder.md R147). `id` and `imm32` carry a value only when the spec gives them one:
`id` when `hit`, `imm32` when the matched row has an immediate. -/
structure DecoderOut where
  hit : Bool
  id : Option Nat
  rs : RegIdx
  rt : RegIdx
  rd : RegIdx
  imm32 : Option Word
deriving DecidableEq, Repr

/-- The decoder as a combinational block (40_decoder.md R140, R147). -/
def decoderOut (invPresent : Bool) (w : Word) : DecoderOut :=
  { hit := (decode invPresent w).isSome
    id := (decode invPresent w).map fun i => i.id.row
    rs := fieldRs w
    rt := fieldRt w
    rd := fieldRd w
    imm32 := (decode invPresent w).bind immediateOf }

/-! ### The encoder (30_encoding.md R102, R103, R105, R109, R110) -/

/-- Format R: `000000 rs rt rd 00000 fn` (30_encoding.md R102). -/
def encodeR (fn : BitVec 6) (rd rs rt : RegIdx) : Word := 0b000000#6 ++ rs ++ rt ++ rd ++ 0b00000#5 ++ fn

/-- Format I: `op rs rt imm16` (30_encoding.md R103). -/
def encodeI (op : BitVec 6) (rs rt : RegIdx) (imm : BitVec 16) : Word := op ++ rs ++ rt ++ imm

/-- Format J: `op tgt26` (30_encoding.md R105). -/
def encodeJ (op : BitVec 6) (tgt : BitVec 26) : Word := op ++ tgt

/-- The low 16 bits of an extended immediate: `imm16 = simm[15:0]` (40_decoder.md R150). -/
def imm16 (v : Word) : BitVec 16 := v.extractLsb' 0 16

/-- The word of an instruction, from the formats and the pattern column of 30_encoding.md R108. -/
def encode : Instr → Word
  | .add rd rs rt => encodeR 0b100000#6 rd rs rt
  | .sub rd rs rt => encodeR 0b100010#6 rd rs rt
  | .and rd rs rt => encodeR 0b100100#6 rd rs rt
  | .or rd rs rt => encodeR 0b100101#6 rd rs rt
  | .xor rd rs rt => encodeR 0b100110#6 rd rs rt
  | .slt rd rs rt => encodeR 0b101010#6 rd rs rt
  | .craft rd rs rt => encodeR 0b110000#6 rd rs rt
  | .brew rd rs rt => encodeR 0b110001#6 rd rs rt
  | .smelt rd rs => encodeR 0b110010#6 rd rs 0#5
  | .j tgt => encodeJ 0b000010#6 (tgt.extractLsb' 0 26)
  | .beq rs rt disp => encodeI 0b000100#6 rs rt (imm16 disp)
  | .bne rs rt disp => encodeI 0b000101#6 rs rt (imm16 disp)
  | .addi rt rs simm => encodeI 0b001000#6 rs rt (imm16 simm)
  | .andi rt rs zimm => encodeI 0b001100#6 rs rt (imm16 zimm)
  | .ori rt rs zimm => encodeI 0b001101#6 rs rt (imm16 zimm)
  | .lw rt off rs => encodeI 0b100011#6 rs rt (imm16 off)
  | .sw rt off rs => encodeI 0b101011#6 rs rt (imm16 off)
  | .mine rt off rs => encodeI 0b110000#6 rs rt (imm16 off)
  | .place rt off rs => encodeI 0b110001#6 rs rt (imm16 off)
  | .ifmob rt off rs => encodeI 0b110010#6 rs rt (imm16 off)
  | .invld rt off rs => encodeI 0b110011#6 rs rt (imm16 off)
  | .invst rt off rs => encodeI 0b110100#6 rs rt (imm16 off)
  | .hotbar simm => encodeI 0b110101#6 0#5 0#5 (imm16 simm)
  | .chat rs => encodeI 0b110110#6 rs 0#5 0#16
  | .sprint rs disp => encodeI 0b110111#6 rs 0#5 (imm16 disp)

end Sys2Proof
end

