-- ==== Sys2Proof/Config.lean ====
section
/-! DEFINITION. The configuration record `Cfg` of 00_scope.md R8, as plain data, and the reference values of that rule. -/

namespace Sys2Proof

/-- Byte storage: (address, byte) pairs in one canonical form, addresses strictly rising and no entry equal to what an
unlisted address reads as (`Memory.wf` in Machine/Memory.lean). -/
abbrev Memory := List Host.Cell

/-- A program image: (byte address, instruction word) pairs, addresses strictly rising; the partial map `prog` of R8. -/
abbrev Program := List (Nat × Word)

/-- A run of 32-bit cells in the byte address space: cell `k` stands at byte address `base + 4*k` (20_memory.md R61, R70). -/
structure Window where
  /-- Byte address of cell 0. -/
  base : Word
  /-- How many 32-bit cells the window has. -/
  cells : Nat
deriving DecidableEq, Repr

/-- The three regions of 20_memory.md R61. -/
inductive Region where
  /-- General memory `GM`, reached only by `lw` and `sw`. -/
  | general
  /-- The World region, reached only by `mine`, `place` and `ifmob`. -/
  | world
  /-- The Inventory region, reached only by `invld` and `invst`. -/
  | inventory
deriving DecidableEq, Repr

/-- The two regions addressed by a cell index (20_memory.md R70 to R73). -/
inductive CellRegion where
  /-- The World region. -/
  | world
  /-- The Inventory region. -/
  | inventory
deriving DecidableEq, Repr

/-- The configuration inputs of the core (00_scope.md R8; 10_state.md R46). -/
structure Cfg where
  /-- `WORLD_BASE` and `WORLD_CELLS`. -/
  world : Window
  /-- `INV_PRESENT`: whether the Inventory region and its two instructions exist. -/
  invPresent : Bool
  /-- `INV_BASE` and `INV_CELLS`; ignored when the Inventory is absent (20_memory.md R76). -/
  inventory : Window
  /-- `gm_valid`, as the windows of word addresses that general memory has. DESIGN CHOICE (log entry 3): every predicate
  on the multiples of 4 below 2^32 is such a list. -/
  general : List Window
  /-- `gm_init`, as the bytes of general memory when the run starts; an unlisted byte is 0. -/
  gmInit : Memory
  /-- `prog`: the program image the host fetches from. -/
  prog : Program
  /-- `RESET_PC`. -/
  resetPc : Word
  /-- `HOTBAR_REG`: the register `hotbar` writes. -/
  hotbarReg : RegIdx
  /-- `LINE_TERM`: the bytes `chat` appends after the numeral. -/
  lineTerm : List Byte
deriving DecidableEq, Repr

/-- The reference values of 00_scope.md R8. `prog` is "per test" there; here no program is placed (log entry 2). -/
def Cfg.reference : Cfg where
  world := ⟨0x20000000#32, 0x00010000⟩
  invPresent := true
  inventory := ⟨0x30000000#32, 0x00000100⟩
  general := [⟨0x10010000#32, 0x4000⟩]
  gmInit := []
  prog := []
  resetPc := 0x00400000#32
  hotbarReg := 26#5
  lineTerm := [0x0A#8]

end Sys2Proof
end

