-- ==== Sys2Proof/Machine/Memory.lean ====
section
/-! DEFINITION. The named operations on byte storage and on the program image. Byte order inside a word is
little-endian (20_memory.md R64). -/

namespace Sys2Proof

/-- What an address reads as that no entry lists: World and Inventory cells default to 0 (10_state.md R52, 20_memory.md
R75); general memory starts with `gm_init` listed, 0 elsewhere (log entry 4). -/
def unlistedByte : Byte := 0#8

/-- The canonical form: addresses strictly rising, and no entry equal to what an unlisted address reads as. -/
abbrev Memory.wf (m : Memory) : Prop :=
  List.Pairwise (fun a b : Host.Cell => a.1 < b.1) m ∧ ∀ c ∈ m, c.2 ≠ unlistedByte

/-- Every listed address satisfies `p`. -/
def Memory.within (m : Memory) (p : Nat → Bool) : Bool := List.all m fun c => p c.1

/-- The byte at an address. -/
def Memory.readByte : Memory → Nat → Byte
  | [], _ => unlistedByte
  | (k, b) :: m, a => if a = k then b else Memory.readByte m a

/-- Store one byte, keeping the canonical form: writing what an unlisted address reads as removes the entry. -/
def Memory.writeByte : Memory → Nat → Byte → Memory
  | [], a, b => if b = unlistedByte then [] else [(a, b)]
  | (k, c) :: m, a, b =>
    if a < k then if b = unlistedByte then (k, c) :: m else (a, b) :: (k, c) :: m
    else if a = k then if b = unlistedByte then m else (a, b) :: m
    else (k, c) :: Memory.writeByte m a b

/-- Byte `k` of a word: bits `8k+7 : 8k` (20_memory.md R64). -/
def byteOf (v : Word) (k : Nat) : Byte := v.extractLsb' (8 * k) 8

/-- The 32-bit word at a byte address: byte `k` of the word stands at `a + k` (20_memory.md R64). -/
def Memory.readWord (m : Memory) (a : Nat) : Word :=
  m.readByte (a + 3) ++ m.readByte (a + 2) ++ m.readByte (a + 1) ++ m.readByte a

/-- Store the four bytes of a word (20_memory.md R64, R77). -/
def Memory.writeWord (m : Memory) (a : Nat) (v : Word) : Memory :=
  (((m.writeByte a (byteOf v 0)).writeByte (a + 1) (byteOf v 1)).writeByte (a + 2) (byteOf v 2)).writeByte (a + 3) (byteOf v 3)

/-- `prog(a)`: the word of the program image at a byte address, if there is one (00_scope.md R8; 10_state.md R42). -/
def Program.lookup : Program → Nat → Option Word
  | [], _ => none
  | (k, w) :: p, a => if a = k then some w else Program.lookup p a

/-- Place a word in a program image, keeping the addresses strictly rising: the host's loading of program memory
(70_reset_and_hazards.md R281 (4)), never an effect of an instruction (20_memory.md R83). -/
def Program.place : Program → Nat → Word → Program
  | [], a, w => [(a, w)]
  | (k, x) :: p, a, w =>
    if a < k then (a, w) :: (k, x) :: p
    else if a = k then (a, w) :: p
    else (k, x) :: Program.place p a w

/-- A byte address is a multiple of 4. -/
def wordAligned (a : Nat) : Bool := a % 4 == 0

/-- The image's addresses are strictly rising multiples of 4 below 2^32 (00_scope.md R9 (7)). -/
abbrev Program.wf (p : Program) : Prop :=
  List.Pairwise (fun a b : Nat × Word => a.1 < b.1) p ∧ ∀ c ∈ p, wordAligned c.1 ∧ c.1 < 2 ^ 32

end Sys2Proof
end

