-- ==== Sys2Proof/Machine/State.lean ====
section
/-! DEFINITION. The state of the machine (10_state.md R20) as plain data, the reasons a step can stop, and the state
after reset (10_state.md R50 to R54). -/

namespace Sys2Proof.Machine

/-- The storage of the register file: the 31 cells `x[1]` to `x[31]`; `x[0]` "holds no storage" (10_state.md R20). Cell
`i - 1` holds `x[i]`. -/
abbrev RegFile := Vector Word 31

/-- The whole state: "the register file, the program counter and the memory regions" and the emit log (10_state.md R20),
with the configuration inputs as they were sampled at reset (10_state.md R46; log entry 1). -/
structure State where
  /-- `x[1]` to `x[31]` (10_state.md R21). -/
  regs : RegFile
  /-- The address of the instruction being executed (10_state.md R27). -/
  pc : Word
  /-- General memory, by byte address (20_memory.md R66). -/
  gm : Memory
  /-- The World cells, by byte address: cell `idx` at `WORLD_BASE + 4*idx` (20_memory.md R61, R70). -/
  world : Memory
  /-- The Inventory cells, by byte address: cell `idx` at `INV_BASE + 4*idx` (20_memory.md R61, R70). -/
  inv : Memory
  /-- The emit log: an append-only byte string (10_state.md R34). -/
  out : List Byte
  /-- The sampled configuration: no step changes it (10_state.md R31, R46). -/
  cfg : Cfg
deriving DecidableEq, Repr

/-- The two run-time faults (60_exceptions.md R250), each with what is recorded for the host. A fault ends the step and
changes nothing (60_exceptions.md R253), so the state after it is the state before it. -/
inductive Fault where
  /-- DecodeMiss (60_exceptions.md R251): raised by the decoder for a word that matches no template, with the word and
  its address. Safe: the spec names this fault. -/
  | decodeMiss (instr pc : Word)
  /-- AddressFault (60_exceptions.md R252): raised by `lw`, `sw`, `mine`, `place`, `ifmob`, `invld`, `invst` on a
  misaligned or out-of-range access, with the faulting address, the word and its address. Safe: the spec names this
  fault. -/
  | addressFault (addr instr pc : Word)
deriving DecidableEq, Repr

/-- Why the model takes no step. -/
inductive Refusal where
  /-- An instruction whose meaning is not written yet; raised by `exec`'s arms only, and by none of them now. Safe. -/
  | notModelled (mnemonic : String)
  /-- `prog(pc)` is undefined, so the host presents no instruction and there is no step: the normal end of a run, FINAL
  of 70_reset_and_hazards.md R289. Raised by `step`. Safe: it runs no instruction, and no instruction was presented. -/
  | programEnded (pc : Word)
  /-- The configuration is not well-formed: "a model should refuse any other" (00_scope.md R9; 93 U10). Raised by `step`.
  Safe. -/
  | configNotWellFormed
  /-- The PC is not a multiple of 4: "the spec gives no meaning to any other value" (10_state.md R28; 93 U11). Raised by
  `step`. Safe. -/
  | pcMisaligned (pc : Word)
deriving DecidableEq, Repr

/-- The state at the start of a run with configuration `c` (10_state.md R50 to R54): registers 0, PC at `RESET_PC`, World
and Inventory never written, general memory holding `gm_init`, nothing emitted. -/
def State.resetTo (c : Cfg) : State where
  regs := Vector.replicate 31 0#32
  pc := c.resetPc
  gm := c.gmInit
  world := []
  inv := []
  out := []
  cfg := c

/-- The machine right after reset, in the reference configuration of 00_scope.md R8 (log entries 1 and 2). -/
def State.reset : State := State.resetTo Cfg.reference

end Sys2Proof.Machine
end

