-- ==== Sys2Proof/Machine/Boot.lean ====
section
/-! DEFINITION. What the host must have done before the first step (70_reset_and_hazards.md R281): a well-formed
configuration (00_scope.md R9) and a template table without conflict (60_exceptions.md R256). -/

namespace Sys2Proof

/-- One past the last byte address of a window. -/
abbrev Window.limit (w : Window) : Nat := w.base.toNat + 4 * w.cells

/-- The byte address lies inside the window. -/
def Window.contains (w : Window) (a : Nat) : Bool := decide (w.base.toNat ≤ a) && decide (a < w.limit)

/-- The window starts at a multiple of 4, has at least one cell and lies inside the address space (00_scope.md R8, R9). -/
def Window.fits (w : Window) : Bool :=
  wordAligned w.base.toNat && decide (1 ≤ w.cells) && decide (w.limit ≤ 2 ^ 32)

/-- No byte address lies in both windows. -/
def Window.disjoint (v w : Window) : Bool := decide (v.limit ≤ w.base.toNat) || decide (w.limit ≤ v.base.toNat)

/-- `gm_valid(a)` (00_scope.md R8), for a word address. -/
def Cfg.gmValid (c : Cfg) (a : Word) : Bool := c.general.any (·.contains a.toNat)

/-- The byte at `a` belongs to a word that general memory has. -/
def Cfg.gmByte (c : Cfg) (a : Nat) : Bool := c.general.any (·.contains a)

/-- The byte at `a` belongs to an Inventory cell: none does when the Inventory is absent (20_memory.md R76). -/
def Cfg.invByte (c : Cfg) (a : Nat) : Bool := c.invPresent && c.inventory.contains a

/-- The window of a cell region (20_memory.md R70). -/
def Cfg.window (c : Cfg) : CellRegion → Window
  | .world => c.world
  | .inventory => c.inventory

/-- `CfgOK` (00_scope.md R9), conditions (1) to (7). -/
def Cfg.ok (c : Cfg) : Bool :=
  -- (1) and (2): aligned bases, windows inside the address space, disjoint from each other
  c.world.fits && wordAligned c.inventory.base.toNat &&
  (!c.invPresent || (c.inventory.fits && c.world.disjoint c.inventory)) &&
  -- (3) and (4): general memory has only whole words, none of them inside a region's window
  c.general.all (fun g => g.fits && g.disjoint c.world && (!c.invPresent || g.disjoint c.inventory)) &&
  decide (Memory.wf c.gmInit) && Memory.within c.gmInit c.gmByte &&
  -- (5) and (6)
  wordAligned c.resetPc.toNat && decide (c.hotbarReg ≠ 0#5) &&
  -- (7)
  decide (Program.wf c.prog)

end Sys2Proof

namespace Sys2Proof.Machine

/-- Why a machine is not brought up (70_reset_and_hazards.md R281 (1), (2)). -/
inductive BootError where
  /-- The configuration is not well-formed (00_scope.md R9; 93 U10). -/
  | configNotWellFormed
  /-- RegistrationConflict, with the two templates (60_exceptions.md R250, R256); which pair, of several, and in which
  order is the model's choice (log entry 20). -/
  | registrationConflict (a b : Template)
deriving DecidableEq, Repr

/-- Boot (70_reset_and_hazards.md R281): check the configuration, check the template table, then reset. -/
def boot (c : Cfg) (table : List Template) : Except BootError State :=
  if c.ok then
    match tableConflict table with
    | some (a, b) => .error (.registrationConflict a b)
    | none => .ok (State.resetTo c)
  else .error .configNotWellFormed

end Sys2Proof.Machine
end

