-- ==== Sys2Proof/Machine/Ops.lean ====
section
/-! DEFINITION. The named operations over registers, PC and memory regions (00_scope.md R13), the writes of one step
applied together (70_reset_and_hazards.md R283, R285), and the report of a fault (60_exceptions.md R253, R254). -/

namespace Sys2Proof.Machine

/-! ### Register file (10_state.md R21 to R23, R26) -/

/-- `x[i]`: 0 for index 0, else the cell (10_state.md R22). -/
def RegFile.read (f : RegFile) (i : RegIdx) : Word :=
  if _h : i = 0#5 then 0#32 else f[i.toNat - 1]'(by have := i.isLt; omega)

/-- `x[i] <- v`: no effect for index 0 (10_state.md R23). -/
def RegFile.write (f : RegFile) (i : RegIdx) (v : Word) : RegFile :=
  if _h : i = 0#5 then f else f.set (i.toNat - 1) v (by have := i.isLt; omega)

/-- `x[i]` in a state (10_state.md R22). -/
def State.reg (s : State) (i : RegIdx) : Word := RegFile.read s.regs i

/-- The state with `x[i] <- v` done (10_state.md R23). -/
def State.setReg (s : State) (i : RegIdx) (v : Word) : State := { s with regs := RegFile.write s.regs i v }

/-! ### Program counter (10_state.md R27 to R29) -/

/-- `pc_next = wrap32(pc + 4)` (44_control_flow.md R221). -/
def State.pcNext (s : State) : Word := s.pc + 4#32

/-- The state with another PC. -/
def State.setPc (s : State) (target : Word) : State := { s with pc := target }

/-- "PC is always word-aligned" (10_state.md R28). -/
def State.pcAligned (s : State) : Bool := wordAligned s.pc.toNat

/-- The word the host presents: `prog(pc)` (10_state.md R42). -/
def State.fetch (s : State) : Option Word := Program.lookup s.cfg.prog s.pc.toNat

/-! ### Memory regions (20_memory.md R61) -/

/-- The storage of a region. -/
def State.mem (s : State) : Region → Memory
  | .general => s.gm
  | .world => s.world
  | .inventory => s.inv

/-- The state with another content of one region. -/
def State.setMem (s : State) (r : Region) (m : Memory) : State :=
  match r with
  | .general => { s with gm := m }
  | .world => { s with world := m }
  | .inventory => { s with inv := m }

/-- The byte at an address of a region: how statements look at memory. -/
def State.readByte (s : State) (r : Region) (a : Nat) : Byte := (s.mem r).readByte a

/-- The region of a cell region. -/
def CellRegion.toRegion : CellRegion → Region
  | .world => .world
  | .inventory => .inventory

/-- Byte address of cell `idx` of a region: `BASE + 4*idx` (20_memory.md R70). -/
def State.cellAddr (s : State) (r : CellRegion) (idx : Nat) : Nat := (s.cfg.window r).base.toNat + 4 * idx

/-- The value of cell `idx` of a region (20_memory.md R61). -/
def State.cell (s : State) (r : CellRegion) (idx : Nat) : Word :=
  (s.mem (CellRegion.toRegion r)).readWord (s.cellAddr r idx)

/-! ### One step's writes (40_decoder.md R151; 70_reset_and_hazards.md R283, R286) -/

/-- A write of one 32-bit cell, at its byte address in its region. -/
structure CellWrite where
  region : Region
  addr : Nat
  value : Word
deriving DecidableEq, Repr

/-- What a handler yields when it does not fault: "at most one register write, at most one memory-cell write, at most one
Emit, and redirect = Some(target) or None" (70_reset_and_hazards.md R283). -/
structure Delta where
  reg : Option (RegIdx × Word) := none
  cell : Option CellWrite := none
  emit : Option (List Byte) := none
  redirect : Option Word := none
deriving DecidableEq, Repr

/-- Apply the register write, if there is one. -/
def State.applyReg (s : State) : Option (RegIdx × Word) → State
  | none => s
  | some (i, v) => s.setReg i v

/-- Apply the memory-cell write, if there is one. -/
def State.applyCell (s : State) : Option CellWrite → State
  | none => s
  | some w => s.setMem w.region ((s.mem w.region).writeWord w.addr w.value)

/-- Append to the emit log, if the instruction emits (45_system.md R241). -/
def State.applyEmit (s : State) : Option (List Byte) → State
  | none => s
  | some bytes => { s with out := s.out ++ bytes }

/-- The post-state of a step that does not fault: the writes take effect together, and the PC is the target of the
redirect or else `pc_next` of the pre-state (70_reset_and_hazards.md R283, R285; 44_control_flow.md R222, R223). -/
def State.commit (s : State) (d : Delta) : State :=
  (((s.applyReg d.reg).applyCell d.cell).applyEmit d.emit).setPc (d.redirect.getD s.pcNext)

/-! ### Access primitives (20_memory.md R67, R68, R72, R73): `error a` is AddressFault(a) -/

/-- The check of `MemRead` and `MemWrite`: alignment, then existence (20_memory.md R65, R67, R68). -/
def State.gmCheck (s : State) (addr : Word) : Except Word Nat :=
  if !wordAligned addr.toNat then .error addr
  else if !s.cfg.gmValid addr then .error addr
  else .ok addr.toNat

/-- `MemRead(addr, 4)` (20_memory.md R67). -/
def State.memRead (s : State) (addr : Word) : Except Word Word :=
  (s.gmCheck addr).map fun a => s.gm.readWord a

/-- `MemWrite(addr, 4, v)`: the write it makes (20_memory.md R68). -/
def State.memWrite (s : State) (addr v : Word) : Except Word CellWrite :=
  (s.gmCheck addr).map fun a => ⟨.general, a, v⟩

/-- The check of `RegionRead` and `RegionWrite`, and the byte address of the cell; the index is a mathematical integer
and `4*idx` never wraps (20_memory.md R71 to R74). -/
def State.cellCheck (s : State) (r : CellRegion) (idx : Int) : Except Word Nat :=
  if idx < 0 ∨ ((s.cfg.window r).cells : Int) ≤ idx then
    .error (wrap32 (((s.cfg.window r).base.toNat : Int) + 4 * idx))
  else .ok (s.cellAddr r idx.toNat)

/-- `RegionRead(R, idx)` (20_memory.md R72). -/
def State.regionRead (s : State) (r : CellRegion) (idx : Int) : Except Word Word :=
  (s.cellCheck r idx).map fun a => (s.mem (CellRegion.toRegion r)).readWord a

/-- `RegionWrite(R, idx, v)`: the write it makes (20_memory.md R73). -/
def State.regionWrite (s : State) (r : CellRegion) (idx : Int) (v : Word) : Except Word CellWrite :=
  (s.cellCheck r idx).map fun a => ⟨CellRegion.toRegion r, a, v⟩

/-! ### Faults (60_exceptions.md): there is no trap entry, only the report (R254) -/

/-- `raise DecodeMiss(w)`: the step ends, nothing changes (60_exceptions.md R251, R253). -/
def raiseDecodeMiss (w : Word) (s : State) : Host.Outcome State Fault Refusal := .fault (.decodeMiss w s.pc)

/-- `raise AddressFault(a)` by the instruction `i`: the step ends, nothing changes (60_exceptions.md R252, R253). The
instruction word recorded is `i`'s encoding, which is the fetched word (40_decoder.md R150). -/
def raiseAddressFault (a : Word) (i : Instr) (s : State) : Host.Outcome State Fault Refusal :=
  .fault (.addressFault a (encode i) s.pc)

/-- How a handler that accesses memory ends: AddressFault with no effect, or its writes committed
(70_reset_and_hazards.md R283; 60_exceptions.md R253). -/
def complete (i : Instr) (s : State) : Except Word Delta → Host.Outcome State Fault Refusal
  | .error a => raiseAddressFault a i s
  | .ok d => .next (s.commit d)

/-- What the fault interface carries on a step that faults (10_state.md R45). -/
structure FaultReport where
  /-- `fault_kind`: 1 DecodeMiss, 2 AddressFault. -/
  kind : BitVec 2
  /-- `fault_addr`: "for DecodeMiss it is 0 and carries no meaning". -/
  addr : Word
  /-- `fault_instr`. -/
  instr : Word
  /-- `fault_pc`. -/
  pc : Word
deriving DecidableEq, Repr

/-- The report of a fault (10_state.md R45; 60_exceptions.md R250). -/
def Fault.report : Fault → FaultReport
  | .decodeMiss w pc => ⟨1#2, 0#32, w, pc⟩
  | .addressFault a w pc => ⟨2#2, a, w, pc⟩

end Sys2Proof.Machine
end

