-- ==== Sys2Proof/Machine/Operands.lean ====
section
/-! DEFINITION. The operand forms: the one addressing mode, in its two readings (43_load_store.md R208), the branch and
jump targets (30_encoding.md R106), and which registers and cells each instruction names (10_state.md R26; 20_memory.md
R62). -/

namespace Sys2Proof.Machine

/-- `ea = wrap32(x[rs] + off)`: byte address of `lw` and `sw` (43_load_store.md R208). -/
def State.effAddr (s : State) (rs : RegIdx) (off : Word) : Word := s.reg rs + off

/-- `idx = sint(x[rs]) + sint(off)`, a mathematical integer: cell index of the region instructions (20_memory.md R71). -/
def State.cellIndex (s : State) (rs : RegIdx) (off : Word) : Int := sint (s.reg rs) + sint off

/-- `wrap32(pc_next + 4 * sint(disp))` (44_control_flow.md R224, R225, R227). -/
def State.branchTarget (s : State) (disp : Word) : Word := s.pcNext + 4#32 * disp

/-- `(pc_next & 0xF0000000) | (tgt << 2)` (44_control_flow.md R226; 90 C1). -/
def State.jumpTarget (s : State) (tgt : Word) : Word := (s.pcNext &&& 0xF0000000#32) ||| (tgt <<< 2)

/-- The registers an instruction reads (10_state.md R26). -/
def readsRegs : Instr → List RegIdx
  | .add _ rs rt => [rs, rt]
  | .sub _ rs rt => [rs, rt]
  | .and _ rs rt => [rs, rt]
  | .or _ rs rt => [rs, rt]
  | .xor _ rs rt => [rs, rt]
  | .slt _ rs rt => [rs, rt]
  | .craft _ rs rt => [rs, rt]
  | .brew _ rs rt => [rs, rt]
  | .smelt _ rs => [rs]
  | .j _ => []
  | .beq rs rt _ => [rs, rt]
  | .bne rs rt _ => [rs, rt]
  | .addi _ rs _ => [rs]
  | .andi _ rs _ => [rs]
  | .ori _ rs _ => [rs]
  | .lw _ _ rs => [rs]
  | .sw rt _ rs => [rs, rt]
  | .mine _ _ rs => [rs]
  | .place rt _ rs => [rs, rt]
  | .ifmob _ _ rs => [rs]
  | .invld _ _ rs => [rs]
  | .invst rt _ rs => [rs, rt]
  | .hotbar _ => []
  | .chat rs => [rs]
  | .sprint rs _ => [rs]

/-- The register an instruction writes, under a configuration (10_state.md R26). -/
def writesReg (c : Cfg) : Instr → Option RegIdx
  | .add rd _ _ => some rd
  | .sub rd _ _ => some rd
  | .and rd _ _ => some rd
  | .or rd _ _ => some rd
  | .xor rd _ _ => some rd
  | .slt rd _ _ => some rd
  | .craft rd _ _ => some rd
  | .brew rd _ _ => some rd
  | .smelt rd _ => some rd
  | .j _ => none
  | .beq _ _ _ => none
  | .bne _ _ _ => none
  | .addi rt _ _ => some rt
  | .andi rt _ _ => some rt
  | .ori rt _ _ => some rt
  | .lw rt _ _ => some rt
  | .sw _ _ _ => none
  | .mine rt _ _ => some rt
  | .place _ _ _ => none
  | .ifmob rt _ _ => some rt
  | .invld rt _ _ => some rt
  | .invst _ _ _ => none
  | .hotbar _ => some c.hotbarReg
  | .chat _ => none
  | .sprint rs _ => some rs

/-- Direction of a data access (20_memory.md R62). -/
inductive Direction where
  | read
  | write
deriving DecidableEq, Repr

/-- The address decoder: region and direction, "from the instruction, never from the address value" (20_memory.md R62). -/
def accessOf : Instr → Option (Region × Direction)
  | .lw _ _ _ => some (.general, .read)
  | .sw _ _ _ => some (.general, .write)
  | .mine _ _ _ => some (.world, .read)
  | .ifmob _ _ _ => some (.world, .read)
  | .place _ _ _ => some (.world, .write)
  | .invld _ _ _ => some (.inventory, .read)
  | .invst _ _ _ => some (.inventory, .write)
  | .add _ _ _ => none
  | .sub _ _ _ => none
  | .and _ _ _ => none
  | .or _ _ _ => none
  | .xor _ _ _ => none
  | .slt _ _ _ => none
  | .craft _ _ _ => none
  | .brew _ _ _ => none
  | .smelt _ _ => none
  | .j _ => none
  | .beq _ _ _ => none
  | .bne _ _ _ => none
  | .addi _ _ _ => none
  | .andi _ _ _ => none
  | .ori _ _ _ => none
  | .hotbar _ => none
  | .chat _ => none
  | .sprint _ _ => none

end Sys2Proof.Machine
end

