-- ==== Sys2Proof/Machine/Alu.lean ====
section
/-! DEFINITION. The register-register instructions (41_alu_register.md). No exception, no flag, no redirect (R170). -/

namespace Sys2Proof.Machine

/-- The whole effect of an instruction that only writes one register (41_alu_register.md R170; 42_alu_immediate.md R190). -/
def writeResult (s : State) (d : RegIdx) (v : Word) : Host.Outcome State Fault Refusal :=
  .next (s.commit { reg := some (d, v) })

/-- 41_alu_register.md R171. -/
def execAdd (rd rs rt : RegIdx) (s : State) : Host.Outcome State Fault Refusal :=
  writeResult s rd (s.reg rs + s.reg rt)

/-- 41_alu_register.md R172. -/
def execSub (rd rs rt : RegIdx) (s : State) : Host.Outcome State Fault Refusal :=
  writeResult s rd (s.reg rs - s.reg rt)

/-- 41_alu_register.md R173. -/
def execAnd (rd rs rt : RegIdx) (s : State) : Host.Outcome State Fault Refusal :=
  writeResult s rd (s.reg rs &&& s.reg rt)

/-- 41_alu_register.md R174. -/
def execOr (rd rs rt : RegIdx) (s : State) : Host.Outcome State Fault Refusal :=
  writeResult s rd (s.reg rs ||| s.reg rt)

/-- 41_alu_register.md R175. -/
def execXor (rd rs rt : RegIdx) (s : State) : Host.Outcome State Fault Refusal :=
  writeResult s rd (s.reg rs ^^^ s.reg rt)

/-- 41_alu_register.md R176. -/
def execSlt (rd rs rt : RegIdx) (s : State) : Host.Outcome State Fault Refusal :=
  writeResult s rd (conditionWord (signedLess (s.reg rs) (s.reg rt)))

/-- 41_alu_register.md R177. -/
def execCraft (rd rs rt : RegIdx) (s : State) : Host.Outcome State Fault Refusal :=
  writeResult s rd (pack (s.reg rs) (s.reg rt))

/-- 41_alu_register.md R178. -/
def execBrew (rd rs rt : RegIdx) (s : State) : Host.Outcome State Fault Refusal :=
  writeResult s rd (mix (s.reg rs) (s.reg rt))

/-- 41_alu_register.md R179. -/
def execSmelt (rd rs : RegIdx) (s : State) : Host.Outcome State Fault Refusal :=
  writeResult s rd (clampByte (s.reg rs))

end Sys2Proof.Machine
end

