-- ==== Sys2Proof/Machine/Control.lean ====
section
/-! DEFINITION. Control transfer (44_control_flow.md). A redirect is computed from `pc_next`, has no delay slot (R228) and
never faults (R230). -/

namespace Sys2Proof.Machine

/-- The redirect of a conditional transfer: taken to the target, or sequential (44_control_flow.md R220, R222, R223). -/
def redirectIf (taken : Bool) (target : Word) : Option Word := if taken then some target else none

/-- 44_control_flow.md R224. -/
def execBeq (rs rt : RegIdx) (disp : Word) (s : State) : Host.Outcome State Fault Refusal :=
  .next (s.commit { redirect := redirectIf (s.reg rs == s.reg rt) (s.branchTarget disp) })

/-- 44_control_flow.md R225. -/
def execBne (rs rt : RegIdx) (disp : Word) (s : State) : Host.Outcome State Fault Refusal :=
  .next (s.commit { redirect := redirectIf (s.reg rs != s.reg rt) (s.branchTarget disp) })

/-- 44_control_flow.md R226. -/
def execJ (tgt : Word) (s : State) : Host.Outcome State Fault Refusal :=
  .next (s.commit { redirect := some (s.jumpTarget tgt) })

/-- 44_control_flow.md R227: the value tested is the computed difference, not a re-read of the register (D14). -/
def execSprint (rs : RegIdx) (disp : Word) (s : State) : Host.Outcome State Fault Refusal :=
  .next (s.commit
    { reg := some (rs, s.reg rs - 1#32)
      redirect := redirectIf (s.reg rs - 1#32 != 0#32) (s.branchTarget disp) })

end Sys2Proof.Machine
end

