-- ==== Sys2Proof/Machine/Text.lean ====
section
/-! DEFINITION. The text `chat` emits: `DecText` of 45_system.md R241. -/

namespace Sys2Proof.Machine

/-- The ASCII byte of a digit: `0`-`9` are bytes 0x30-0x39 (45_system.md R241). -/
def digitByte (d : Nat) : Byte := BitVec.ofNat 8 (0x30 + d)

/-- The decimal digits of `n`, most significant first, without leading zeros, for `n < 10 ^ fuel` (45_system.md R241). -/
def decDigits : Nat → Nat → List Byte
  | 0, _ => []
  | fuel + 1, n => if n < 10 then [digitByte n] else decDigits fuel (n / 10) ++ [digitByte (n % 10)]

/-- The numeral of `sint(v)`: `-` (byte 0x2D) when negative, then the digits of its magnitude; a magnitude has at most ten
digits (45_system.md R241). -/
def decNumeral (v : Word) : List Byte :=
  (if sint v < 0 then [0x2D#8] else []) ++ decDigits 10 (sint v).natAbs

/-- `DecText(v)`: the numeral followed by `LINE_TERM` (45_system.md R241). -/
def decText (lineTerm : List Byte) (v : Word) : List Byte := decNumeral v ++ lineTerm

end Sys2Proof.Machine
end

