-- ==== Sys2Proof/Machine/Environment.lean ====
section
/-! DEFINITION. The one instruction that reaches the environment (45_system.md R240). -/

namespace Sys2Proof.Machine

/-- 45_system.md R242: emits directly, writes no register (R243). -/
def execChat (rs : RegIdx) (s : State) : Host.Outcome State Fault Refusal :=
  .next (s.commit { emit := some (decText s.cfg.lineTerm (s.reg rs)) })

end Sys2Proof.Machine
end

