-- ==== Sys2Proof/Machine/Immediate.lean ====
section
/-! DEFINITION. The immediate instructions (42_alu_immediate.md). No exception, no flag, no redirect (R190). -/

namespace Sys2Proof.Machine

/-- 42_alu_immediate.md R191. -/
def execAddi (rt rs : RegIdx) (simm : Word) (s : State) : Host.Outcome State Fault Refusal :=
  writeResult s rt (s.reg rs + simm)

/-- 42_alu_immediate.md R192. -/
def execAndi (rt rs : RegIdx) (zimm : Word) (s : State) : Host.Outcome State Fault Refusal :=
  writeResult s rt (s.reg rs &&& zimm)

/-- 42_alu_immediate.md R193. -/
def execOri (rt rs : RegIdx) (zimm : Word) (s : State) : Host.Outcome State Fault Refusal :=
  writeResult s rt (s.reg rs ||| zimm)

/-- 42_alu_immediate.md R194: the destination is the configured register, named by no field. -/
def execHotbar (simm : Word) (s : State) : Host.Outcome State Fault Refusal :=
  writeResult s s.cfg.hotbarReg (simm &&& 0x00000007#32)

end Sys2Proof.Machine
end

