-- ==== Sys2Proof/Machine/LoadStore.lean ====
section
/-! DEFINITION. Loads and stores (43_load_store.md). The check comes first; if it fails the instruction raises
AddressFault and has no effect at all (R200). -/

namespace Sys2Proof.Machine

/-- The effect of a load: the value read, passed through `f`, goes to `x[d]` (43_load_store.md R200). -/
def loadWith (i : Instr) (s : State) (d : RegIdx) (read : Except Word Word) (f : Word → Word) :
    Host.Outcome State Fault Refusal :=
  complete i s (read.map fun v => { reg := some (d, f v) })

/-- The effect of a store: the one cell write (43_load_store.md R200). -/
def storeWith (i : Instr) (s : State) (write : Except Word CellWrite) : Host.Outcome State Fault Refusal :=
  complete i s (write.map fun w => { cell := some w })

/-- The Inventory instructions exist only when `INV_PRESENT`; "otherwise the word is DecodeMiss" (43_load_store.md R206;
20_memory.md R76; log entry 8). -/
def ifInventory (i : Instr) (s : State) (k : Host.Outcome State Fault Refusal) : Host.Outcome State Fault Refusal :=
  if s.cfg.invPresent then k else raiseDecodeMiss (encode i) s

/-- 43_load_store.md R201. -/
def execLw (rt : RegIdx) (off : Word) (rs : RegIdx) (s : State) : Host.Outcome State Fault Refusal :=
  loadWith (.lw rt off rs) s rt (s.memRead (s.effAddr rs off)) id

/-- 43_load_store.md R202. -/
def execSw (rt : RegIdx) (off : Word) (rs : RegIdx) (s : State) : Host.Outcome State Fault Refusal :=
  storeWith (.sw rt off rs) s (s.memWrite (s.effAddr rs off) (s.reg rt))

/-- 43_load_store.md R203. -/
def execMine (rt : RegIdx) (off : Word) (rs : RegIdx) (s : State) : Host.Outcome State Fault Refusal :=
  loadWith (.mine rt off rs) s rt (s.regionRead .world (s.cellIndex rs off)) id

/-- 43_load_store.md R204. -/
def execPlace (rt : RegIdx) (off : Word) (rs : RegIdx) (s : State) : Host.Outcome State Fault Refusal :=
  storeWith (.place rt off rs) s (s.regionWrite .world (s.cellIndex rs off) (s.reg rt))

/-- 43_load_store.md R205. -/
def execIfmob (rt : RegIdx) (off : Word) (rs : RegIdx) (s : State) : Host.Outcome State Fault Refusal :=
  loadWith (.ifmob rt off rs) s rt (s.regionRead .world (s.cellIndex rs off)) fun v => conditionWord (isNegative v)

/-- 43_load_store.md R206. -/
def execInvld (rt : RegIdx) (off : Word) (rs : RegIdx) (s : State) : Host.Outcome State Fault Refusal :=
  ifInventory (.invld rt off rs) s
    (loadWith (.invld rt off rs) s rt (s.regionRead .inventory (s.cellIndex rs off)) id)

/-- 43_load_store.md R207. -/
def execInvst (rt : RegIdx) (off : Word) (rs : RegIdx) (s : State) : Host.Outcome State Fault Refusal :=
  ifInventory (.invst rt off rs) s
    (storeWith (.invst rt off rs) s (s.regionWrite .inventory (s.cellIndex rs off) (s.reg rt)))

end Sys2Proof.Machine
end

