-- ==== Sys2Proof/Machine/Dispatch.lean ====
section
/-! DEFINITION. The dispatcher: "given a Decoded Instruction, invoke exactly one handler once" (40_decoder.md R151). -/

namespace Sys2Proof.Machine

def exec (i : Instr) (s : State) : Host.Outcome State Fault Refusal :=
  match i with
  | .add rd rs rt => Sys2Proof.Machine.execAdd rd rs rt s
  | .sub rd rs rt => Sys2Proof.Machine.execSub rd rs rt s
  | .and rd rs rt => Sys2Proof.Machine.execAnd rd rs rt s
  | .or rd rs rt => Sys2Proof.Machine.execOr rd rs rt s
  | .xor rd rs rt => Sys2Proof.Machine.execXor rd rs rt s
  | .slt rd rs rt => Sys2Proof.Machine.execSlt rd rs rt s
  | .craft rd rs rt => Sys2Proof.Machine.execCraft rd rs rt s
  | .brew rd rs rt => Sys2Proof.Machine.execBrew rd rs rt s
  | .smelt rd rs => Sys2Proof.Machine.execSmelt rd rs s
  | .j tgt => Sys2Proof.Machine.execJ tgt s
  | .beq rs rt disp => Sys2Proof.Machine.execBeq rs rt disp s
  | .bne rs rt disp => Sys2Proof.Machine.execBne rs rt disp s
  | .addi rt rs simm => Sys2Proof.Machine.execAddi rt rs simm s
  | .andi rt rs zimm => Sys2Proof.Machine.execAndi rt rs zimm s
  | .ori rt rs zimm => Sys2Proof.Machine.execOri rt rs zimm s
  | .lw rt off rs => Sys2Proof.Machine.execLw rt off rs s
  | .sw rt off rs => Sys2Proof.Machine.execSw rt off rs s
  | .mine rt off rs => Sys2Proof.Machine.execMine rt off rs s
  | .place rt off rs => Sys2Proof.Machine.execPlace rt off rs s
  | .ifmob rt off rs => Sys2Proof.Machine.execIfmob rt off rs s
  | .invld rt off rs => Sys2Proof.Machine.execInvld rt off rs s
  | .invst rt off rs => Sys2Proof.Machine.execInvst rt off rs s
  | .hotbar simm => Sys2Proof.Machine.execHotbar simm s
  | .chat rs => Sys2Proof.Machine.execChat rs s
  | .sprint rs disp => Sys2Proof.Machine.execSprint rs disp s

end Sys2Proof.Machine
end

