-- ==== Sys2Proof/Machine/Step.lean ====
section
/-! DEFINITION. One step (70_reset_and_hazards.md R283), and placing the word the next step fetches. -/

namespace Sys2Proof.Machine

/-- One step: fetch `prog(pc)`, decode, run the handler (70_reset_and_hazards.md R283). The model is defined only for a
well-formed configuration (00_scope.md R9) and an aligned PC (10_state.md R28); with `prog(pc)` undefined the run has ended
(70_reset_and_hazards.md R289). -/
def step (s : State) : Host.Outcome State Fault Refusal :=
  if !s.cfg.ok then .refused .configNotWellFormed
  else if !s.pcAligned then .refused (.pcMisaligned s.pc)
  else
    match s.fetch with
    | none => .refused (.programEnded s.pc)
    | some w =>
      match decode s.cfg.invPresent w with
      | none => raiseDecodeMiss w s
      | some i => exec i s

/-- What to make of each of the three outcomes of a step. -/
def onOutcome {α : Type} (o : Host.Outcome State Fault Refusal) (next : State → α) (fault : Fault → α)
    (refused : Refusal → α) : α :=
  match o with
  | .next t => next t
  | .fault f => fault f
  | .refused r => refused r

/-- The state with the low `nbits` bits of `w` as the word of the program image at the PC: the host's loading of program
memory (70_reset_and_hazards.md R281 (4); log entry 2). -/
def State.withFetchWord (s : State) (nbits w : Nat) : State :=
  { s with cfg := { s.cfg with prog := Program.place s.cfg.prog s.pc.toNat (BitVec.ofNat 32 (w % 2 ^ nbits)) } }

end Sys2Proof.Machine
end

