-- ==== Sys2Proof/Machine/Ports.lean ====
section
/-! DEFINITION. The block's interfaces (10_state.md R40 to R46): the clock edge with reset and step enable, the general
memory and emit ports, and the host's one move between steps (20_memory.md R82). A signal that the spec gives a value only
under a strobe is an Option here. -/

namespace Sys2Proof.Machine

/-- The inputs sampled at a rising clock edge (10_state.md R40, R46). -/
structure Inputs where
  rst : Bool
  stepEn : Bool
  cfg : Cfg
deriving DecidableEq, Repr

/-- What a reset pulse does to a running machine (70_reset_and_hazards.md R280): the configuration is sampled (10_state.md
R46), registers, PC, World, Inventory and emit log take their reset values, and general memory "is not touched by the
core" (10_state.md R53; log entry 9). -/
def State.resetPulse (s : State) (c : Cfg) : State :=
  { s with regs := Vector.replicate 31 0#32, pc := c.resetPc, world := [], inv := [], out := [], cfg := c }

/-- A rising clock edge: the next state and the fault report, if the step faults (10_state.md R40, R45). Reset comes first;
a step that faults holds the state (60_exceptions.md R253), and so does an edge with no instruction presented. -/
def clockEdge (inp : Inputs) (s : State) : State × Option FaultReport :=
  if inp.rst then (s.resetPulse inp.cfg, none)
  else if inp.stepEn then
    onOutcome (step s) (fun t => (t, none)) (fun f => (s, some (Fault.report f))) (fun _ => (s, none))
  else (s, none)

/-- `fetch_addr = pc` (10_state.md R42). -/
def State.fetchAddr (s : State) : Word := s.pc

/-- The instruction a step would run: the word the host presents, decoded (10_state.md R42; 40_decoder.md R149), in a state
the spec gives a meaning to (00_scope.md R9; 10_state.md R28). -/
def State.presented (s : State) : Option Instr :=
  if s.cfg.ok && s.pcAligned then s.fetch.bind (decode s.cfg.invPresent) else none

/-- A request on the general-memory port: `gm_re` with `gm_addr`, or `gm_we` with `gm_addr` and `gm_wdata` (10_state.md
R43). -/
inductive GmRequest where
  | read (addr : Word)
  | write (addr data : Word)
deriving DecidableEq, Repr

/-- The request one instruction makes: only `lw` and `sw`, and only with an aligned address, since the core "raises
AddressFault without asserting gm_re or gm_we when they are not" (10_state.md R43). -/
def gmRequestOf (i : Instr) (s : State) : Option GmRequest :=
  match i with
  | .lw _ off rs => if wordAligned (s.effAddr rs off).toNat then some (.read (s.effAddr rs off)) else none
  | .sw rt off rs => if wordAligned (s.effAddr rs off).toNat then some (.write (s.effAddr rs off) (s.reg rt)) else none
  | .add _ _ _ => none
  | .sub _ _ _ => none
  | .and _ _ _ => none
  | .or _ _ _ => none
  | .xor _ _ _ => none
  | .slt _ _ _ => none
  | .craft _ _ _ => none
  | .brew _ _ _ => none
  | .smelt _ _ => none
  | .j _ => none
  | .beq _ _ _ => none
  | .bne _ _ _ => none
  | .addi _ _ _ => none
  | .andi _ _ _ => none
  | .ori _ _ _ => none
  | .mine _ _ _ => none
  | .place _ _ _ => none
  | .ifmob _ _ _ => none
  | .invld _ _ _ => none
  | .invst _ _ _ => none
  | .hotbar _ => none
  | .chat _ => none
  | .sprint _ _ => none

/-- The general-memory port of the block (10_state.md R43). -/
def State.gmPort (s : State) : Option GmRequest := s.presented.bind fun i => gmRequestOf i s

/-- `gm_ok`, the host's answer for the presented address: `gm_valid(gm_addr)` in the model (10_state.md R43). -/
def State.gmOk (s : State) : GmRequest → Bool
  | .read a => s.cfg.gmValid a
  | .write a _ => s.cfg.gmValid a

/-- The value one instruction presents on the emit port (10_state.md R44). -/
def emitValueOf (i : Instr) (s : State) : Option Word :=
  match i with
  | .chat rs => some (s.reg rs)
  | .add _ _ _ => none
  | .sub _ _ _ => none
  | .and _ _ _ => none
  | .or _ _ _ => none
  | .xor _ _ _ => none
  | .slt _ _ _ => none
  | .craft _ _ _ => none
  | .brew _ _ _ => none
  | .smelt _ _ => none
  | .j _ => none
  | .beq _ _ _ => none
  | .bne _ _ _ => none
  | .addi _ _ _ => none
  | .andi _ _ _ => none
  | .ori _ _ _ => none
  | .lw _ _ _ => none
  | .sw _ _ _ => none
  | .mine _ _ _ => none
  | .place _ _ _ => none
  | .ifmob _ _ _ => none
  | .invld _ _ _ => none
  | .invst _ _ _ => none
  | .hotbar _ => none
  | .sprint _ _ => none

/-- `emit_valid` with `emit_value`: present exactly when the step's instruction is `chat`, which never faults
(10_state.md R44; 45_system.md R242). -/
def State.emitPort (s : State) : Option Word := s.presented.bind fun i => emitValueOf i s

/-- The host's one move, between steps: it writes a word of general memory that exists (10_state.md R41; 20_memory.md R82).
No step makes it (log entry 12). -/
def State.hostStore (s : State) (addr v : Word) : Except Word State :=
  (s.memWrite addr v).map fun w => s.applyCell (some w)

end Sys2Proof.Machine
end

