-- ==== Sys2Proof/Machine/Run.lean ====
section
/-! DEFINITION. The run-level convention of 70_reset_and_hazards.md R289. -/

namespace Sys2Proof.Machine

/-- How a run stands (70_reset_and_hazards.md R289). -/
inductive RunResult where
  /-- The bound on steps was reached and the run has not ended. -/
  | running (s : State)
  /-- (a) FINAL: `prog(pc)` is undefined; the normal end. -/
  | final (s : State)
  /-- (b) FAULTED: a step faulted; the state is the unchanged pre-state; not final. -/
  | faulted (s : State) (f : Fault)
  /-- Not a run of the spec: the configuration or the PC is one the spec gives no meaning to. -/
  | outside (s : State) (r : Refusal)
deriving DecidableEq, Repr

/-- How a run stands when its next step is refused: FINAL when `prog(pc)` is undefined. -/
def RunResult.ofRefusal (s : State) (r : Refusal) : RunResult :=
  match r with
  | .programEnded _ => .final s
  | _ => .outside s r

/-- How a run stands at the bound: ended already, or not. -/
def runHere (s : State) : RunResult :=
  onOutcome (step s) (fun _ => .running s) (fun _ => .running s) (RunResult.ofRefusal s)

/-- How a run stands after one more step. -/
def runOne (s : State) : RunResult :=
  onOutcome (step s) (fun t => .running t) (fun f => .faulted s f) (RunResult.ofRefusal s)

/-- Go on from a run that has not ended. -/
def RunResult.andThen (k : State → RunResult) : RunResult → RunResult
  | .running s => k s
  | .final s => .final s
  | .faulted s f => .faulted s f
  | .outside s r => .outside s r

/-- Up to `n` steps from a state, ending as 70_reset_and_hazards.md R289 says. -/
def runFor : Nat → State → RunResult
  | 0, s => runHere s
  | n + 1, s => (runOne s).andThen fun t => runFor n t

/-- One more step under the alternative end address: leaving the image elsewhere is not FINAL there. -/
def runOneToEndPc (s : State) : RunResult :=
  onOutcome (step s) (fun t => .running t) (fun f => .faulted s f) (fun r => .outside s r)

/-- Up to `n` steps from a state, with the alternative that R289 allows: FINAL is `pc = END_PC`. -/
def runToEndPc (endPc : Word) : Nat → State → RunResult
  | 0, s => if s.pc = endPc then .final s else .running s
  | n + 1, s => if s.pc = endPc then .final s else (runOneToEndPc s).andThen fun t => runToEndPc endPc n t

end Sys2Proof.Machine
end

