-- ==== Sys2Proof/Safety.lean ====
section
/-! DEFINITION. What counts as a safe state and a safe step, and the terms in which statements say what an instruction
changes and what it leaves alone. -/

namespace Sys2Proof.Machine

/-- The invariant of the machine: a well-formed configuration (00_scope.md R9), an aligned PC (10_state.md R28), and three
memories in canonical form that hold nothing outside their own windows (20_memory.md R60, R61). -/
structure State.Inv (s : State) : Prop where
  cfg_ok : s.cfg.ok = true
  pc_aligned : s.pcAligned = true
  gm_wf : Memory.wf s.gm
  world_wf : Memory.wf s.world
  inv_wf : Memory.wf s.inv
  gm_within : Memory.within s.gm s.cfg.gmByte = true
  world_within : Memory.within s.world s.cfg.world.contains = true
  inv_within : Memory.within s.inv s.cfg.invByte = true

/-- No byte of any region differs. -/
def SameMemory (s t : State) : Prop := ∀ r a, t.readByte r a = s.readByte r a

/-- No register differs. -/
def SameRegs (s t : State) : Prop := ∀ r, t.reg r = s.reg r

/-- Registers after `x[d] <- v`: a write to register 0 is dropped, every other register keeps its value (10_state.md R22,
R23). -/
def RegsAfterWrite (s t : State) (d : RegIdx) (v : Word) : Prop :=
  ∀ r, t.reg r = if r = 0#5 then 0#32 else if r = d then v else s.reg r

/-- The PC after a sequential step (44_control_flow.md R221, R223). -/
def PcSequential (s t : State) : Prop := t.pc = wrap32 (uint s.pc + 4)

/-- Memory after the word `v` is stored at byte address `a` of region `r`: its four bytes, least significant first
(20_memory.md R64), and no other byte of any region. -/
def MemoryAfterStore (s t : State) (r : Region) (a : Nat) (v : Word) : Prop :=
  (∀ k, k < 4 → t.readByte r (a + k) = v.extractLsb' (8 * k) 8) ∧
  ∀ r' b, ¬ (r' = r ∧ a ≤ b ∧ b < a + 4) → t.readByte r' b = s.readByte r' b

/-- The step wrote `x[d] <- v`, moved to the next instruction and changed nothing else. -/
def OnlyWritesReg (s t : State) (d : RegIdx) (v : Word) : Prop :=
  RegsAfterWrite s t d v ∧ PcSequential s t ∧ SameMemory s t ∧ t.out = s.out ∧ t.cfg = s.cfg

/-- The step stored the word `v` at byte address `a` of region `r`, moved to the next instruction and changed nothing
else. -/
def OnlyStores (s t : State) (r : Region) (a : Nat) (v : Word) : Prop :=
  MemoryAfterStore s t r a v ∧ SameRegs s t ∧ PcSequential s t ∧ t.out = s.out ∧ t.cfg = s.cfg

/-- The step set the PC and changed nothing else. -/
def OnlySetsPc (s t : State) (target : Word) : Prop :=
  t.pc = target ∧ SameRegs s t ∧ SameMemory s t ∧ t.out = s.out ∧ t.cfg = s.cfg

/-- A general-memory access at `ea` fails with AddressFault at `a`: misaligned, or no such word (60_exceptions.md R252 (a),
(b)). -/
def GmAccessFails (s : State) (ea a : Word) : Prop :=
  (ea.toNat % 4 ≠ 0 ∨ s.cfg.gmValid ea = false) ∧ a = ea

/-- A cell access at index `idx` of region `r` fails with AddressFault at `a`: the index is out of range (60_exceptions.md
R252 (c), (d)); `a` is the truncated address (20_memory.md R74). -/
def CellAccessFails (s : State) (r : CellRegion) (idx : Int) (a : Word) : Prop :=
  ¬ (0 ≤ idx ∧ idx < (s.cfg.window r).cells) ∧ a = wrap32 (((s.cfg.window r).base.toNat : Int) + 4 * idx)

/-- The causes of AddressFault, exhaustively: which instruction raises it in which state, and the address recorded
(60_exceptions.md R252). -/
def AddressFaultCause (s : State) (a : Word) : Instr → Prop
  | .lw _ off rs => GmAccessFails s (wrap32 ((uint (s.reg rs) : Int) + sint off)) a
  | .sw _ off rs => GmAccessFails s (wrap32 ((uint (s.reg rs) : Int) + sint off)) a
  | .mine _ off rs => CellAccessFails s .world (sint (s.reg rs) + sint off) a
  | .place _ off rs => CellAccessFails s .world (sint (s.reg rs) + sint off) a
  | .ifmob _ off rs => CellAccessFails s .world (sint (s.reg rs) + sint off) a
  | .invld _ off rs => CellAccessFails s .inventory (sint (s.reg rs) + sint off) a
  | .invst _ off rs => CellAccessFails s .inventory (sint (s.reg rs) + sint off) a
  | .add _ _ _ => False
  | .sub _ _ _ => False
  | .and _ _ _ => False
  | .or _ _ _ => False
  | .xor _ _ _ => False
  | .slt _ _ _ => False
  | .craft _ _ _ => False
  | .brew _ _ _ => False
  | .smelt _ _ => False
  | .j _ => False
  | .beq _ _ _ => False
  | .bne _ _ _ => False
  | .addi _ _ _ => False
  | .andi _ _ _ => False
  | .ori _ _ _ => False
  | .hotbar _ => False
  | .chat _ => False
  | .sprint _ _ => False

/-- The step is in the redirected state of the Control-Flow Unit: the 21 other instructions never are, `beq`, `bne` and
`sprint` are when their condition holds, `j` always is (44_control_flow.md R222, R223). -/
def Redirects (s : State) : Instr → Prop
  | .beq rs rt _ => s.reg rs = s.reg rt
  | .bne rs rt _ => s.reg rs ≠ s.reg rt
  | .j _ => True
  | .sprint rs _ => wrap32 ((uint (s.reg rs) : Int) - 1) ≠ 0#32
  | .add _ _ _ => False
  | .sub _ _ _ => False
  | .and _ _ _ => False
  | .or _ _ _ => False
  | .xor _ _ _ => False
  | .slt _ _ _ => False
  | .craft _ _ _ => False
  | .brew _ _ _ => False
  | .smelt _ _ => False
  | .addi _ _ _ => False
  | .andi _ _ _ => False
  | .ori _ _ _ => False
  | .lw _ _ _ => False
  | .sw _ _ _ => False
  | .mine _ _ _ => False
  | .place _ _ _ => False
  | .ifmob _ _ _ => False
  | .invld _ _ _ => False
  | .invst _ _ _ => False
  | .hotbar _ => False
  | .chat _ => False

/-- A state reached from a state at the start of a run with a well-formed configuration. -/
inductive Reachable : State → Prop where
  | start (c : Cfg) (h : c.ok = true) : Reachable (State.resetTo c)
  | step (s t : State) (h : Reachable s) (hs : step s = .next t) : Reachable t

end Sys2Proof.Machine
end

