-- ==== Sys2Proof/Certificates/Slice0/Obligations.lean ====
section
/-! DEFINITION. The statements for the provers. Each docstring cites the rules it formalises; the helper predicates
(`OnlyWritesReg`, `OnlyStores`, `OnlySetsPc`, `AddressFaultCause`, `Redirects`, `State.Inv`) are in Sys2Proof/Safety.lean. -/

open Sys2Proof Sys2Proof.Machine

/-- add: the destination gets the sum of the two registers modulo 2^32; nothing else changes; its word decodes to it (R171). -/
def Obligations.AddWritesWrappedSum : Prop :=
  ∀ (rd rs rt : RegIdx) (s : State),
    (∃ t, exec (.add rd rs rt) s = .next t ∧
      OnlyWritesReg s t rd (wrap32 ((uint (s.reg rs) : Int) + uint (s.reg rt)))) ∧
    ∀ inv, decode inv (0b000000#6 ++ rs ++ rt ++ rd ++ 0b00000#5 ++ 0b100000#6) = some (.add rd rs rt)

/-- sub: the destination gets the difference x[rs] - x[rt] modulo 2^32; nothing else changes; its word decodes to it (R172). -/
def Obligations.SubWritesWrappedDifference : Prop :=
  ∀ (rd rs rt : RegIdx) (s : State),
    (∃ t, exec (.sub rd rs rt) s = .next t ∧
      OnlyWritesReg s t rd (wrap32 ((uint (s.reg rs) : Int) - uint (s.reg rt)))) ∧
    ∀ inv, decode inv (0b000000#6 ++ rs ++ rt ++ rd ++ 0b00000#5 ++ 0b100010#6) = some (.sub rd rs rt)

/-- and: the destination gets the bitwise AND of the two registers; nothing else changes; its word decodes to it (R173). -/
def Obligations.AndWritesBitwiseAnd : Prop :=
  ∀ (rd rs rt : RegIdx) (s : State),
    (∃ t, exec (.and rd rs rt) s = .next t ∧
      OnlyWritesReg s t rd (BitVec.ofFnLE fun k : Fin 32 => and ((s.reg rs).getLsbD k) ((s.reg rt).getLsbD k))) ∧
    ∀ inv, decode inv (0b000000#6 ++ rs ++ rt ++ rd ++ 0b00000#5 ++ 0b100100#6) = some (.and rd rs rt)

/-- or: the destination gets the bitwise OR of the two registers; nothing else changes; its word decodes to it (R174). -/
def Obligations.OrWritesBitwiseOr : Prop :=
  ∀ (rd rs rt : RegIdx) (s : State),
    (∃ t, exec (.or rd rs rt) s = .next t ∧
      OnlyWritesReg s t rd (BitVec.ofFnLE fun k : Fin 32 => or ((s.reg rs).getLsbD k) ((s.reg rt).getLsbD k))) ∧
    ∀ inv, decode inv (0b000000#6 ++ rs ++ rt ++ rd ++ 0b00000#5 ++ 0b100101#6) = some (.or rd rs rt)

/-- xor: the destination gets the bitwise exclusive OR of the two registers; nothing else changes; its word decodes to it (R175). -/
def Obligations.XorWritesBitwiseXor : Prop :=
  ∀ (rd rs rt : RegIdx) (s : State),
    (∃ t, exec (.xor rd rs rt) s = .next t ∧
      OnlyWritesReg s t rd (BitVec.ofFnLE fun k : Fin 32 => xor ((s.reg rs).getLsbD k) ((s.reg rt).getLsbD k))) ∧
    ∀ inv, decode inv (0b000000#6 ++ rs ++ rt ++ rd ++ 0b00000#5 ++ 0b100110#6) = some (.xor rd rs rt)

/-- slt: the destination gets 1 when x[rs] is less than x[rt] as signed integers, else 0; nothing else changes; its word decodes to it (R176). -/
def Obligations.SltWritesSignedComparison : Prop :=
  ∀ (rd rs rt : RegIdx) (s : State),
    (∃ t, exec (.slt rd rs rt) s = .next t ∧
      OnlyWritesReg s t rd (if sint (s.reg rs) < sint (s.reg rt) then 1#32 else 0#32)) ∧
    ∀ inv, decode inv (0b000000#6 ++ rs ++ rt ++ rd ++ 0b00000#5 ++ 0b101010#6) = some (.slt rd rs rt)

/-- craft: the destination gets the low half of x[rs] above the low half of x[rt]; nothing else changes; its word decodes to it (R177). -/
def Obligations.CraftPacksLowHalves : Prop :=
  ∀ (rd rs rt : RegIdx) (s : State),
    (∃ t, exec (.craft rd rs rt) s = .next t ∧
      OnlyWritesReg s t rd ((s.reg rs).extractLsb' 0 16 ++ (s.reg rt).extractLsb' 0 16)) ∧
    ∀ inv, decode inv (0b000000#6 ++ rs ++ rt ++ rd ++ 0b00000#5 ++ 0b110000#6) = some (.craft rd rs rt)

/-- brew: the destination gets (x[rs] xor (x[rt] * 8 modulo 2^32)) + floor(x[rt] / 4), modulo 2^32; nothing else changes; its word decodes to it (R178). -/
def Obligations.BrewMixesSources : Prop :=
  ∀ (rd rs rt : RegIdx) (s : State),
    (∃ t, exec (.brew rd rs rt) s = .next t ∧
      OnlyWritesReg s t rd (wrap32 ((uint (s.reg rs ^^^ wrap32 ((uint (s.reg rt) : Int) * 8)) : Int) + uint (s.reg rt) / 4))) ∧
    ∀ inv, decode inv (0b000000#6 ++ rs ++ rt ++ rd ++ 0b00000#5 ++ 0b110001#6) = some (.brew rd rs rt)

/-- smelt: the destination gets max(0, min(255, x[rs])) read as signed; nothing else changes; rt must be 0 (R179). -/
def Obligations.SmeltClampsToByte : Prop :=
  ∀ (rd rs : RegIdx) (s : State),
    (∃ t, exec (.smelt rd rs) s = .next t ∧
      OnlyWritesReg s t rd (wrap32 (max 0 (min 255 (sint (s.reg rs)))))) ∧
    (∀ inv, decode inv (0b000000#6 ++ rs ++ 0b00000#5 ++ rd ++ 0b00000#5 ++ 0b110010#6) = some (.smelt rd rs)) ∧
    ∀ inv (rt : RegIdx), rt ≠ 0#5 →
      decode inv (0b000000#6 ++ rs ++ rt ++ rd ++ 0b00000#5 ++ 0b110010#6) = none

/-- addi: the destination gets x[rs] plus the signed 16-bit immediate, modulo 2^32; nothing else changes; its word decodes to it (R191). -/
def Obligations.AddiAddsSignedImmediate : Prop :=
  ∀ (rt rs : RegIdx) (imm : BitVec 16) (s : State),
    (∃ t, exec (.addi rt rs (sext16 imm)) s = .next t ∧
      OnlyWritesReg s t rt (wrap32 ((uint (s.reg rs) : Int) + imm.toInt))) ∧
    ∀ inv, decode inv (0b001000#6 ++ rs ++ rt ++ imm) = some (.addi rt rs (sext16 imm))

/-- andi: the destination gets x[rs] AND the zero-extended immediate, so its upper half is 0; nothing else changes; its word decodes to it (R192). -/
def Obligations.AndiMasksWithZeroExtendedImmediate : Prop :=
  ∀ (rt rs : RegIdx) (imm : BitVec 16) (s : State),
    (∃ t, exec (.andi rt rs (zext16 imm)) s = .next t ∧
      OnlyWritesReg s t rt (0#16 ++ ((s.reg rs).extractLsb' 0 16 &&& imm))) ∧
    ∀ inv, decode inv (0b001100#6 ++ rs ++ rt ++ imm) = some (.andi rt rs (zext16 imm))

/-- ori: the destination gets x[rs] OR the zero-extended immediate, so its upper half passes through; nothing else changes; its word decodes to it (R193). -/
def Obligations.OriSetsZeroExtendedImmediate : Prop :=
  ∀ (rt rs : RegIdx) (imm : BitVec 16) (s : State),
    (∃ t, exec (.ori rt rs (zext16 imm)) s = .next t ∧
      OnlyWritesReg s t rt ((s.reg rs).extractLsb' 16 16 ++ ((s.reg rs).extractLsb' 0 16 ||| imm))) ∧
    ∀ inv, decode inv (0b001101#6 ++ rs ++ rt ++ imm) = some (.ori rt rs (zext16 imm))

/-- hotbar: the configured register gets imm modulo 8, whole; never dropped; rs and rt fields must be 0 (R194). -/
def Obligations.HotbarWritesLowThreeBits : Prop :=
  ∀ (imm : BitVec 16) (s : State),
    (∃ t, exec (.hotbar (sext16 imm)) s = .next t ∧
      OnlyWritesReg s t s.cfg.hotbarReg (wrap32 (imm.toInt % 8)) ∧
      wrap32 (imm.toInt % 8) = (imm.extractLsb' 0 3).setWidth 32 ∧
      (s.cfg.ok = true → t.reg s.cfg.hotbarReg = wrap32 (imm.toInt % 8))) ∧
    (∀ inv, decode inv (0b110101#6 ++ 0b00000#5 ++ 0b00000#5 ++ imm) = some (.hotbar (sext16 imm))) ∧
    ∀ inv (rs rt : RegIdx), ¬ (rs = 0#5 ∧ rt = 0#5) → decode inv (0b110101#6 ++ rs ++ rt ++ imm) = none

/-- lw: an aligned, existing word is loaded whole and nothing else changes; otherwise AddressFault at the unmodified address (R201). -/
def Obligations.LwLoadsOrFaults : Prop :=
  ∀ (rt rs : RegIdx) (imm : BitVec 16) (s : State), ∀ ea, ea = wrap32 ((uint (s.reg rs) : Int) + imm.toInt) →
    (ea.toNat % 4 = 0 → s.cfg.gmValid ea = true →
      ∃ t, exec (.lw rt (sext16 imm) rs) s = .next t ∧ OnlyWritesReg s t rt (s.gm.readWord ea.toNat)) ∧
    ((ea.toNat % 4 ≠ 0 ∨ s.cfg.gmValid ea = false) ∨
        (s.cfg.ok = true ∧ (s.cfg.world.contains ea.toNat = true ∨ s.cfg.invByte ea.toNat = true)) →
      exec (.lw rt (sext16 imm) rs) s = .fault (.addressFault ea (0b100011#6 ++ rs ++ rt ++ imm) s.pc)) ∧
    ∀ inv, decode inv (0b100011#6 ++ rs ++ rt ++ imm) = some (.lw rt (sext16 imm) rs)

/-- sw: the word is stored at the aligned, existing address and nothing else changes; otherwise AddressFault (R202). -/
def Obligations.SwStoresOrFaults : Prop :=
  ∀ (rt rs : RegIdx) (imm : BitVec 16) (s : State), Memory.wf s.gm → ∀ ea, ea = wrap32 ((uint (s.reg rs) : Int) + imm.toInt) →
    (ea.toNat % 4 = 0 → s.cfg.gmValid ea = true →
      ∃ t, exec (.sw rt (sext16 imm) rs) s = .next t ∧ OnlyStores s t .general ea.toNat (s.reg rt)) ∧
    (ea.toNat % 4 ≠ 0 ∨ s.cfg.gmValid ea = false →
      exec (.sw rt (sext16 imm) rs) s = .fault (.addressFault ea (0b101011#6 ++ rs ++ rt ++ imm) s.pc)) ∧
    ∀ inv, decode inv (0b101011#6 ++ rs ++ rt ++ imm) = some (.sw rt (sext16 imm) rs)

/-- mine: a World cell in range is read and nothing else changes; an index out of range is AddressFault (R203). -/
def Obligations.MineReadsWorldCell : Prop :=
  ∀ (rt rs : RegIdx) (imm : BitVec 16) (s : State), ∀ idx : Int, idx = sint (s.reg rs) + imm.toInt →
    (0 ≤ idx → idx < s.cfg.world.cells →
      ∃ t, exec (.mine rt (sext16 imm) rs) s = .next t ∧
        OnlyWritesReg s t rt (s.world.readWord (s.cfg.world.base.toNat + 4 * idx.toNat))) ∧
    (¬ (0 ≤ idx ∧ idx < s.cfg.world.cells) →
      exec (.mine rt (sext16 imm) rs) s =
        .fault (.addressFault (wrap32 ((s.cfg.world.base.toNat : Int) + 4 * idx)) (0b110000#6 ++ rs ++ rt ++ imm) s.pc)) ∧
    ∀ inv, decode inv (0b110000#6 ++ rs ++ rt ++ imm) = some (.mine rt (sext16 imm) rs)

/-- place: a World cell in range is written and nothing else changes; an index out of range is AddressFault (R204). -/
def Obligations.PlaceWritesWorldCell : Prop :=
  ∀ (rt rs : RegIdx) (imm : BitVec 16) (s : State), Memory.wf s.world → ∀ idx : Int, idx = sint (s.reg rs) + imm.toInt →
    (0 ≤ idx → idx < s.cfg.world.cells →
      ∃ t, exec (.place rt (sext16 imm) rs) s = .next t ∧
        OnlyStores s t .world (s.cfg.world.base.toNat + 4 * idx.toNat) (s.reg rt)) ∧
    (¬ (0 ≤ idx ∧ idx < s.cfg.world.cells) →
      exec (.place rt (sext16 imm) rs) s =
        .fault (.addressFault (wrap32 ((s.cfg.world.base.toNat : Int) + 4 * idx)) (0b110001#6 ++ rs ++ rt ++ imm) s.pc)) ∧
    ∀ inv, decode inv (0b110001#6 ++ rs ++ rt ++ imm) = some (.place rt (sext16 imm) rs)

/-- ifmob: a World cell in range is read and nothing else changes; an index out of range is AddressFault (R205). -/
def Obligations.IfmobTestsWorldCell : Prop :=
  ∀ (rt rs : RegIdx) (imm : BitVec 16) (s : State), ∀ idx : Int, idx = sint (s.reg rs) + imm.toInt →
    (0 ≤ idx → idx < s.cfg.world.cells →
      ∃ t, exec (.ifmob rt (sext16 imm) rs) s = .next t ∧
        OnlyWritesReg s t rt (if sint (s.world.readWord (s.cfg.world.base.toNat + 4 * idx.toNat)) < 0 then 1#32 else 0#32)) ∧
    (¬ (0 ≤ idx ∧ idx < s.cfg.world.cells) →
      exec (.ifmob rt (sext16 imm) rs) s =
        .fault (.addressFault (wrap32 ((s.cfg.world.base.toNat : Int) + 4 * idx)) (0b110010#6 ++ rs ++ rt ++ imm) s.pc)) ∧
    ∀ inv, decode inv (0b110010#6 ++ rs ++ rt ++ imm) = some (.ifmob rt (sext16 imm) rs)

/-- invld: a Inventory cell in range is read and nothing else changes; an index out of range is AddressFault (R206). -/
def Obligations.InvldReadsInventoryCell : Prop :=
  ∀ (rt rs : RegIdx) (imm : BitVec 16) (s : State), ∀ idx : Int, idx = sint (s.reg rs) + imm.toInt →
    (s.cfg.invPresent = true → 0 ≤ idx → idx < s.cfg.inventory.cells →
      ∃ t, exec (.invld rt (sext16 imm) rs) s = .next t ∧
        OnlyWritesReg s t rt (s.inv.readWord (s.cfg.inventory.base.toNat + 4 * idx.toNat))) ∧
    (s.cfg.invPresent = true → ¬ (0 ≤ idx ∧ idx < s.cfg.inventory.cells) →
      exec (.invld rt (sext16 imm) rs) s =
        .fault (.addressFault (wrap32 ((s.cfg.inventory.base.toNat : Int) + 4 * idx)) (0b110011#6 ++ rs ++ rt ++ imm) s.pc)) ∧
    decode false (0b110011#6 ++ rs ++ rt ++ imm) = none ∧
    decode true (0b110011#6 ++ rs ++ rt ++ imm) = some (.invld rt (sext16 imm) rs)

/-- invst: a Inventory cell in range is written and nothing else changes; an index out of range is AddressFault (R207). -/
def Obligations.InvstWritesInventoryCell : Prop :=
  ∀ (rt rs : RegIdx) (imm : BitVec 16) (s : State), Memory.wf s.inv → ∀ idx : Int, idx = sint (s.reg rs) + imm.toInt →
    (s.cfg.invPresent = true → 0 ≤ idx → idx < s.cfg.inventory.cells →
      ∃ t, exec (.invst rt (sext16 imm) rs) s = .next t ∧
        OnlyStores s t .inventory (s.cfg.inventory.base.toNat + 4 * idx.toNat) (s.reg rt)) ∧
    (s.cfg.invPresent = true → ¬ (0 ≤ idx ∧ idx < s.cfg.inventory.cells) →
      exec (.invst rt (sext16 imm) rs) s =
        .fault (.addressFault (wrap32 ((s.cfg.inventory.base.toNat : Int) + 4 * idx)) (0b110100#6 ++ rs ++ rt ++ imm) s.pc)) ∧
    decode false (0b110100#6 ++ rs ++ rt ++ imm) = none ∧
    decode true (0b110100#6 ++ rs ++ rt ++ imm) = some (.invst rt (sext16 imm) rs)

/-- beq: the PC is pc_next plus 4 times the signed displacement when x[rs] = x[rt], else pc_next; nothing else changes (R224). -/
def Obligations.BeqBranchesOnEqual : Prop :=
  ∀ (rs rt : RegIdx) (imm : BitVec 16) (s : State),
    (∃ t, exec (.beq rs rt (sext16 imm)) s = .next t ∧
      OnlySetsPc s t (if s.reg rs = s.reg rt then wrap32 (uint (wrap32 (uint s.pc + 4)) + 4 * imm.toInt)
        else wrap32 (uint s.pc + 4))) ∧
    ∀ inv, decode inv (0b000100#6 ++ rs ++ rt ++ imm) = some (.beq rs rt (sext16 imm))

/-- bne: the PC is pc_next plus 4 times the signed displacement when x[rs] differs from x[rt], else pc_next; nothing else changes (R225). -/
def Obligations.BneBranchesOnDifferent : Prop :=
  ∀ (rs rt : RegIdx) (imm : BitVec 16) (s : State),
    (∃ t, exec (.bne rs rt (sext16 imm)) s = .next t ∧
      OnlySetsPc s t (if s.reg rs ≠ s.reg rt then wrap32 (uint (wrap32 (uint s.pc + 4)) + 4 * imm.toInt)
        else wrap32 (uint s.pc + 4))) ∧
    ∀ inv, decode inv (0b000101#6 ++ rs ++ rt ++ imm) = some (.bne rs rt (sext16 imm))

/-- j: the PC is the top four bits of pc_next, then the 26-bit target, then 00; nothing else changes (R226). -/
def Obligations.JumpKeepsSegmentOfNextPc : Prop :=
  ∀ (tgt : BitVec 26) (s : State),
    (∃ t, exec (.j (zext26 tgt)) s = .next t ∧
      OnlySetsPc s t ((wrap32 (uint s.pc + 4)).extractLsb' 28 4 ++ tgt ++ 0#2)) ∧
    ∀ inv, decode inv (0b000010#6 ++ tgt) = some (.j (zext26 tgt))

/-- sprint: x[rs] is decremented, and the PC branches when the computed difference is not 0; nothing else changes (R227). -/
def Obligations.SprintDecrementsThenBranches : Prop :=
  ∀ (rs : RegIdx) (imm : BitVec 16) (s : State), ∀ v, v = wrap32 ((uint (s.reg rs) : Int) - 1) →
    (∃ t, exec (.sprint rs (sext16 imm)) s = .next t ∧ RegsAfterWrite s t rs v ∧
      t.pc = (if v ≠ 0#32 then wrap32 (uint (wrap32 (uint s.pc + 4)) + 4 * imm.toInt) else wrap32 (uint s.pc + 4)) ∧
      SameMemory s t ∧ t.out = s.out ∧ t.cfg = s.cfg) ∧
    (∀ inv, decode inv (0b110111#6 ++ rs ++ 0b00000#5 ++ imm) = some (.sprint rs (sext16 imm))) ∧
    ∀ inv (rt : RegIdx), rt ≠ 0#5 → decode inv (0b110111#6 ++ rs ++ rt ++ imm) = none

/-- chat: the decimal text of x[rs] is appended to the emit log; no register and no memory changes (R242). -/
def Obligations.ChatAppendsDecimalText : Prop :=
  ∀ (rs : RegIdx) (s : State),
    (∃ t, exec (.chat rs) s = .next t ∧
      t.out = s.out ++ decText s.cfg.lineTerm (s.reg rs) ∧
      SameRegs s t ∧ SameMemory s t ∧ PcSequential s t ∧ t.cfg = s.cfg) ∧
    (∀ inv, decode inv (0b110110#6 ++ rs ++ 0b00000#5 ++ 0#16) = some (.chat rs)) ∧
    ∀ inv (rt : RegIdx) (imm : BitVec 16), ¬ (rt = 0#5 ∧ imm = 0#16) →
      decode inv (0b110110#6 ++ rs ++ rt ++ imm) = none

/-- The text of a value is its signed decimal numeral, without leading zeros, 1 to 11 bytes, then the line terminator (R241). -/
def Obligations.DecimalTextIsTheNumeral : Prop :=
  ∀ (term : List Byte) (v : Word), ∃ ds : List Nat,
    ds ≠ [] ∧ (∀ d ∈ ds, d < 10) ∧ (ds.head? = some 0 → ds = [0]) ∧
    ds.foldl (fun n d => 10 * n + d) 0 = (sint v).natAbs ∧
    decText term v = (if sint v < 0 then [0x2D#8] else []) ++ ds.map (fun d => BitVec.ofNat 8 (0x30 + d)) ++ term ∧
    (decText term v).length ≤ 11 + term.length ∧ 1 + term.length ≤ (decText term v).length

/-- Decode and encode agree: every decoded word is its instruction encoded, and every well-formed instruction decodes back (R150). -/
def Obligations.DecodeAndEncodeAreInverse : Prop :=
  (∀ inv w i, decode inv w = some i → i.wellFormed = true ∧ encode i = w) ∧
  (∀ inv w w' i, decode inv w = some i → decode inv w' = some i → w = w') ∧
  ∀ i : Instr, i.wellFormed = true → decode true (encode i) = some i

/-- A word of each family decodes to the instruction the spec lists for it, and near misses decode to nothing (95_test_vectors.md section 2.1, R108, R148). -/
def Obligations.SampleWordsDecodeAsListed : Prop :=
  decode true 0x00221820#32 = some (.add 3#5 1#5 2#5) ∧
  decode true 0x00201832#32 = some (.smelt 3#5 1#5) ∧
  decode true 0x2022FFFF#32 = some (.addi 2#5 1#5 0xFFFFFFFF#32) ∧
  decode true 0xD400FF9C#32 = some (.hotbar 0xFFFFFF9C#32) ∧
  decode true 0xAC22FFFC#32 = some (.sw 2#5 0xFFFFFFFC#32 1#5) ∧
  decode true 0xC822FFFF#32 = some (.ifmob 2#5 0xFFFFFFFF#32 1#5) ∧
  decode true 0x1422FFFD#32 = some (.bne 1#5 2#5 0xFFFFFFFD#32) ∧
  decode true 0x0BFFFFFF#32 = some (.j 0x03FFFFFF#32) ∧
  decode true 0xDC80FFFE#32 = some (.sprint 4#5 0xFFFFFFFE#32) ∧
  decode true 0xD8800000#32 = some (.chat 4#5) ∧
  decode true 0x00221860#32 = none ∧ decode true 0x00211832#32 = none ∧
  decode true 0xD8800001#32 = none ∧ decode true 0x00000000#32 = none

/-- Decoding op first, then funct, then the fixed-zero fields equals the flat match on every word (R144). -/
def Obligations.TwoLevelDecodeEqualsFlatMatch : Prop :=
  ∀ inv w, decodeTwoLevel inv w = decode inv w

/-- At most one row matches a word, so any order of the rows gives the same answer (R143, R146). -/
def Obligations.TableOrderNeverDecides : Prop :=
  ∀ inv w,
    (∀ a ∈ templateTable inv, ∀ b ∈ templateTable inv, a.matches w = true → b.matches w = true → a = b) ∧
    ∀ table : List Template, table.Perm (templateTable inv) → matchRow table w = matchRow (templateTable inv) w

/-- Two rows can match a common word exactly when no bit both fix differs, and a table with such a pair is rejected at boot (R145). -/
def Obligations.ConflictTestIsExact : Prop :=
  (∀ a b : Template, a.pattern &&& a.mask = a.pattern → b.pattern &&& b.mask = b.pattern →
    ((∃ w, a.matches w = true ∧ b.matches w = true) ↔ (a.pattern ^^^ b.pattern) &&& a.mask &&& b.mask = 0#32)) ∧
  (∀ (c : Cfg) (table : List Template), c.ok = true →
    (¬ table.Pairwise (fun a b => (a.pattern ^^^ b.pattern) &&& a.mask &&& b.mask ≠ 0#32) →
      ∃ a ∈ table, ∃ b ∈ table, boot c table = .error (.registrationConflict a b)) ∧
    (table.Pairwise (fun a b => (a.pattern ^^^ b.pattern) &&& a.mask &&& b.mask ≠ 0#32) →
      boot c table = .ok (State.resetTo c))) ∧
  ∀ (c : Cfg) (inv : Bool), c.ok = true → boot c (templateTable inv) = .ok (State.resetTo c)

/-- A non-zero value in a field that a template fixes at zero makes the word match nothing (R111). -/
def Obligations.FixedZeroFieldsTakePartInMatch : Prop :=
  ∀ (inv : Bool) (rs rt rd sh : BitVec 5) (fn : BitVec 6) (imm : BitVec 16),
    (sh ≠ 0#5 → decode inv (0b000000#6 ++ rs ++ rt ++ rd ++ sh ++ fn) = none) ∧
    (rt ≠ 0#5 → decode inv (0b000000#6 ++ rs ++ rt ++ rd ++ sh ++ 0b110010#6) = none) ∧
    (rs ≠ 0#5 ∨ rt ≠ 0#5 → decode inv (0b110101#6 ++ rs ++ rt ++ imm) = none) ∧
    (rt ≠ 0#5 ∨ imm ≠ 0#16 → decode inv (0b110110#6 ++ rs ++ rt ++ imm) = none) ∧
    (rt ≠ 0#5 → decode inv (0b110111#6 ++ rs ++ rt ++ imm) = none)

/-- A word with one of the 47 unused opcodes, or one of the 55 unused functs under opcode 0, decodes to nothing (R109, R110). -/
def Obligations.UnusedOpcodesAndFunctsMiss : Prop :=
  ∀ inv w,
    (fieldOp w).toNat ∉ [0x00, 0x02, 0x04, 0x05, 0x08, 0x0C, 0x0D, 0x23, 0x2B, 0x30, 0x31, 0x32, 0x33, 0x34, 0x35,
      0x36, 0x37] ∨
    (fieldOp w = 0#6 ∧ (fieldFn w).toNat ∉ [0x20, 0x22, 0x24, 0x25, 0x26, 0x2A, 0x30, 0x31, 0x32]) →
    decode inv w = none

/-- A word that matches a template is that instruction; every other word is DecodeMiss; zero and all-ones are illegal (R112). -/
def Obligations.EveryWordIsTemplateOrMiss : Prop :=
  (∀ (id : InstrId) (w : Word), (template id).matches w = true → ∃ i, decode true w = some i ∧ i.id = id) ∧
  (∀ w : Word, (∀ id : InstrId, (template id).matches w = false) →
    decode true w = none ∧
    ∀ s : State, s.cfg.ok = true → s.pcAligned = true → s.fetch = some w → step s = .fault (.decodeMiss w s.pc)) ∧
  decode true 0x00000000#32 = none ∧ decode true 0xFFFFFFFF#32 = none

/-- Without the Inventory the table has 23 rows and decodes as with it, but invld and invst words decode to nothing (R141, R76). -/
def Obligations.AbsentInventoryDropsTwoRows : Prop :=
  (templateTable true).length = 25 ∧ (templateTable false).length = 23 ∧
  ∀ w, decode false w =
    (decode true w).bind fun i => if i.id = .invld ∨ i.id = .invst then none else some i

/-- When the word at the PC decodes to i, i is well-formed and the step is exec of i (R283, R151). -/
def Obligations.StepRunsDecodedInstruction : Prop :=
  ∀ (s : State) (w : Word) (i : Instr), s.cfg.ok = true → s.pcAligned = true → s.fetch = some w →
    decode s.cfg.invPresent w = some i → i.wellFormed = true ∧ step s = exec i s

/-- A step is DecodeMiss exactly when the fetched word matches no template, with the word and its address (R251). -/
def Obligations.DecodeMissExactlyOnUnmatchedWord : Prop :=
  (∀ (s : State) (w : Word), s.cfg.ok = true → s.pcAligned = true → s.fetch = some w →
    ((∃ w' p, step s = .fault (.decodeMiss w' p)) ↔ decode s.cfg.invPresent w = none) ∧
    (decode s.cfg.invPresent w = none → step s = .fault (.decodeMiss w s.pc))) ∧
  ∀ (rt rs : RegIdx) (off : Word), decode false (encode (.invld rt off rs)) = none ∧
    decode false (encode (.invst rt off rs)) = none

/-- A step is AddressFault exactly on the listed causes, with that address, the fetched word and its address (R252). -/
def Obligations.AddressFaultExactlyOnListedCauses : Prop :=
  ∀ (s : State) (w : Word) (i : Instr), s.cfg.ok = true → s.pcAligned = true → s.fetch = some w →
    decode s.cfg.invPresent w = some i →
    ∀ a w' p, step s = .fault (.addressFault a w' p) ↔ w' = w ∧ p = s.pc ∧ AddressFaultCause s a i

/-- A clock edge whose step faults leaves the whole state unchanged and reports; the next edge reports the same again, which the spec marks as its
own inference ([derived] in R255) and the model has by log entry 18 (DEDUCED) (R253, R255). -/
def Obligations.FaultHoldsStateAndRepeats : Prop :=
  ∀ (s : State) (f : Fault) (c : Cfg), step s = .fault f →
    clockEdge ⟨false, true, c⟩ s = (s, some (Fault.report f)) ∧
    clockEdge ⟨false, true, c⟩ (clockEdge ⟨false, true, c⟩ s).1 = (s, some (Fault.report f))

/-- The fault interface carries kind 1 for DecodeMiss or 2 for AddressFault, the fetched word, the PC and the faulting address (R45). -/
def Obligations.FaultInterfaceCarriesReport : Prop :=
  ∀ (s : State) (w : Word) (c : Cfg), s.cfg.ok = true → s.pcAligned = true → s.fetch = some w →
    (decode s.cfg.invPresent w = none → (clockEdge ⟨false, true, c⟩ s).2 = some ⟨1#2, 0#32, w, s.pc⟩) ∧
    (∀ i a, decode s.cfg.invPresent w = some i → AddressFaultCause s a i →
      (clockEdge ⟨false, true, c⟩ s).2 = some ⟨2#2, a, w, s.pc⟩) ∧
    ∀ t, step s = .next t → (clockEdge ⟨false, true, c⟩ s).2 = none

/-- A clock edge resets when rst is high, applies exactly one step when step_en is high, and else holds the state (R40). -/
def Obligations.ClockEdgeResetsStepsOrHolds : Prop :=
  ∀ (s : State) (c : Cfg),
    (∀ en, ∃ t, clockEdge ⟨true, en, c⟩ s = (t, none) ∧ (∀ r, t.reg r = 0#32) ∧ t.pc = c.resetPc ∧
      (∀ a, t.readByte .world a = 0#8) ∧ (∀ a, t.readByte .inventory a = 0#8) ∧ t.out = [] ∧ t.cfg = c) ∧
    (∀ t, step s = .next t → clockEdge ⟨false, true, c⟩ s = (t, none)) ∧
    (∀ f, step s = .fault f → clockEdge ⟨false, true, c⟩ s = (s, some (Fault.report f))) ∧
    clockEdge ⟨false, false, c⟩ s = (s, none)

/-- After reset: registers 0, PC at RESET_PC, World and Inventory 0, general memory gm_init, emit log empty, no fault (R50, R51, R52, R54). -/
def Obligations.ResetLeavesListedValues : Prop :=
  (∀ c : Cfg, (∀ r, (State.resetTo c).reg r = 0#32) ∧ (State.resetTo c).pc = c.resetPc ∧
    (State.resetTo c).fetch = Program.lookup c.prog c.resetPc.toNat ∧
    (∀ a, (State.resetTo c).readByte .world a = 0#8) ∧ (∀ a, (State.resetTo c).readByte .inventory a = 0#8) ∧
    (∀ a, (State.resetTo c).readByte .general a = c.gmInit.readByte a) ∧ (State.resetTo c).out = []) ∧
  Cfg.reference.resetPc = 0x00400000#32 ∧
  ∀ (s : State) (c : Cfg) (en : Bool), (clockEdge ⟨true, en, c⟩ s).2 = none

/-- Every step keeps the invariant: well-formed configuration, aligned PC, three canonical memories inside their windows (R28, R60, R61, R9, R46). -/
def Obligations.StepKeepsInvariant : Prop :=
  ∀ s t : State, s.Inv → step s = .next t → t.Inv

/-- State.reset and every well-formed run start meet the invariant; so does a reset pulse from an invariant state to a well-formed configuration with
the same general-memory map. State.reset is the reference configuration's (log entry 1) and a reset pulse keeps general memory (log entry 9), both the
model's choice (10_state.md section 6, 70_reset_and_hazards.md section 1). -/
def Obligations.ResetMeetsInvariant : Prop :=
  State.reset = State.resetTo Cfg.reference ∧ State.reset.Inv ∧
  (∀ c : Cfg, c.ok = true → (State.resetTo c).Inv) ∧
  ∀ (s : State) (c : Cfg), s.Inv → c.ok = true → c.general = s.cfg.general →
    (s.resetPulse c).Inv ∧ (s.resetPulse c).gm = s.gm

/-- Every state reached from the start of a run, in any well-formed configuration and program, meets the invariant (R28, R9). -/
def Obligations.ReachableStatesMeetInvariant : Prop :=
  ∀ s : State, Reachable s →
    s.Inv ∧ s.pc.toNat % 4 = 0 ∧ step s ≠ .refused .configNotWellFormed ∧ ∀ p, step s ≠ .refused (.pcMisaligned p)

/-- From an aligned PC every instruction leaves an aligned PC (R28, R230). -/
def Obligations.EveryTargetIsAligned : Prop :=
  ∀ (i : Instr) (s t : State), s.pc.toNat % 4 = 0 → exec i s = .next t → t.pc.toNat % 4 = 0

/-- No instruction changes a register other than the one the access table says it writes; register 0 always reads 0 (R26, R22, R286). -/
def Obligations.OnlyNamedRegisterIsWritten : Prop :=
  ∀ (i : Instr) (s t : State), exec i s = .next t →
    (∀ r, writesReg s.cfg i ≠ some r → t.reg r = s.reg r) ∧ s.reg 0#5 = 0#32 ∧ t.reg 0#5 = 0#32

/-- Two states that differ only in registers an instruction does not read give the same fault or the same effects (R26). -/
def Obligations.OnlyNamedRegistersAreRead : Prop :=
  ∀ (i : Instr) (s u : State), u.pc = s.pc → u.gm = s.gm → u.world = s.world → u.inv = s.inv → u.out = s.out →
    u.cfg = s.cfg → (∀ r ∈ readsRegs i, u.reg r = s.reg r) →
    (∃ f, exec i s = .fault f ∧ exec i u = .fault f) ∨
    ∃ s' u', exec i s = .next s' ∧ exec i u = .next u' ∧ u'.pc = s'.pc ∧ u'.gm = s'.gm ∧ u'.world = s'.world ∧
      u'.inv = s'.inv ∧ u'.out = s'.out ∧ u'.cfg = s'.cfg ∧
      ∀ r, writesReg s.cfg i = some r → u'.reg r = s'.reg r

/-- No instruction changes a byte of a region it does not store to; only chat emits; none changes the configuration (R62, R34, R83, R286). -/
def Obligations.OnlyNamedRegionIsWritten : Prop :=
  ∀ (i : Instr) (s t : State), exec i s = .next t →
    (∀ r, accessOf i ≠ some (r, .write) → ∀ a, t.readByte r a = s.readByte r a) ∧
    (∃ bytes, t.out = s.out ++ bytes ∧ (i.id ≠ .chat → bytes = [])) ∧ t.cfg = s.cfg

/-- The PC is pc_next after the 21 instructions that are not transfers and after a branch whose condition is false (R223). -/
def Obligations.SequentialUnlessRedirected : Prop :=
  ∀ (i : Instr) (s t : State), exec i s = .next t → ¬ Redirects s i → t.pc = wrap32 (uint s.pc + 4)

/-- A load from the address just stored to gives the stored value: sw then lw, place then mine or ifmob, invst then invld (R80). -/
def Obligations.LoadsSeeTheLastStore : Prop :=
  ∀ (s t : State) (rt rs rd rb : RegIdx) (off off' : Word), rd ≠ 0#5 →
    (Memory.wf s.gm → exec (.sw rt off rs) s = .next t → t.effAddr rb off' = s.effAddr rs off →
      ∃ u, exec (.lw rd off' rb) t = .next u ∧ u.reg rd = s.reg rt) ∧
    (Memory.wf s.world → exec (.place rt off rs) s = .next t → t.cellIndex rb off' = s.cellIndex rs off →
      (∃ u, exec (.mine rd off' rb) t = .next u ∧ u.reg rd = s.reg rt) ∧
      ∃ u, exec (.ifmob rd off' rb) t = .next u ∧ u.reg rd = if sint (s.reg rt) < 0 then 1#32 else 0#32) ∧
    (Memory.wf s.inv → exec (.invst rt off rs) s = .next t → t.cellIndex rb off' = s.cellIndex rs off →
      ∃ u, exec (.invld rd off' rb) t = .next u ∧ u.reg rd = s.reg rt)

/-- lw and sw with an address inside the World or Inventory window raise AddressFault in every well-formed configuration (R69). -/
def Obligations.GeneralAccessCannotReachRegions : Prop :=
  ∀ (s : State) (rt rs : RegIdx) (off : Word), s.cfg.ok = true →
    s.cfg.world.contains (s.effAddr rs off).toNat = true ∨ s.cfg.invByte (s.effAddr rs off).toNat = true →
    (∃ w, exec (.lw rt off rs) s = .fault (.addressFault (s.effAddr rs off) w s.pc)) ∧
    ∃ w, exec (.sw rt off rs) s = .fault (.addressFault (s.effAddr rs off) w s.pc)

/-- Forming the cell index with 32-bit wraparound gives the same verdict and the same valid index as the mathematical sum (R71, R9). -/
def Obligations.WrappedIndexGivesSameVerdict : Prop :=
  ∀ (c : Cfg) (r : CellRegion) (x : Word) (imm : BitVec 16), c.ok = true → (r = .inventory → c.invPresent = true) →
    ∀ idx idx' : Int, idx = sint x + sint (sext16 imm) → idx' = sint (wrap32 ((uint x : Int) + sint (sext16 imm))) →
      -2 ^ 31 - 2 ^ 15 ≤ idx ∧ idx ≤ 2 ^ 31 - 1 + 2 ^ 15 - 1 ∧ (c.window r).cells ≤ 2 ^ 30 ∧
      (0 ≤ idx ∧ idx < (c.window r).cells ↔ 0 ≤ idx' ∧ idx' < (c.window r).cells) ∧
      (0 ≤ idx → idx < (c.window r).cells → idx' = idx)

/-- A configuration the model accepts meets the conditions of CfgOK; any other is refused by step and by boot (R9). -/
def Obligations.WellFormedConfigurationConditions : Prop :=
  (∀ c : Cfg, c.ok = true →
    c.world.base.toNat % 4 = 0 ∧ c.inventory.base.toNat % 4 = 0 ∧
    1 ≤ c.world.cells ∧ c.world.cells ≤ 2 ^ 30 ∧ c.world.base.toNat + 4 * c.world.cells ≤ 2 ^ 32 ∧
    (c.invPresent = true → 1 ≤ c.inventory.cells ∧ c.inventory.cells ≤ 2 ^ 30 ∧
      c.inventory.base.toNat + 4 * c.inventory.cells ≤ 2 ^ 32 ∧
      ∀ a, ¬ (c.world.contains a = true ∧ c.inventory.contains a = true)) ∧
    (∀ a : Word, c.world.contains a.toNat = true ∨ c.invByte a.toNat = true → c.gmValid a = false) ∧
    c.resetPc.toNat % 4 = 0 ∧ c.hotbarReg ≠ 0#5 ∧
    (∀ a w, Program.lookup c.prog a = some w → a % 4 = 0)) ∧
  ∀ s : State, s.cfg.ok = false →
    step s = .refused .configNotWellFormed ∧ ∀ table, boot s.cfg table = .error .configNotWellFormed

/-- The general-memory port is driven only for aligned lw and sw, gm_ok decides their fault, and emit_valid is exactly chat (R43, R44). -/
def Obligations.PortsAgreeWithStep : Prop :=
  ∀ (s : State) (i : Instr), s.presented = some i →
    (∀ q, s.gmPort = some q → ∃ rt off rs, (s.effAddr rs off).toNat % 4 = 0 ∧
      ((i = .lw rt off rs ∧ q = .read (s.effAddr rs off)) ∨ (i = .sw rt off rs ∧ q = .write (s.effAddr rs off) (s.reg rt))) ∧
      (s.gmOk q = false → ∃ w, step s = .fault (.addressFault (s.effAddr rs off) w s.pc)) ∧
      (s.gmOk q = true → ∃ t, step s = .next t)) ∧
    (∀ v, s.emitPort = some v ↔ ∃ rs, i = .chat rs ∧ v = s.reg rs) ∧
    ∀ v, s.emitPort = some v → ∃ t, step s = .next t ∧ t.out = s.out ++ decText s.cfg.lineTerm v

/-- A run ends FINAL outside the program image and FAULTED on a fault; that step refuses where the image has no word is the model's choice (log entry 5) (R289). -/
def Obligations.RunsEndAsFixed : Prop :=
  (∀ s : State, s.cfg.ok = true → s.pcAligned = true → s.fetch = none → ∀ n, runFor n s = .final s) ∧
  (∀ (s : State) (f : Fault) (n : Nat), step s = .fault f → runFor (n + 1) s = .faulted s f) ∧
  ∀ (s t : State) (n : Nat), step s = .next t → runFor (n + 1) s = runFor n t

/-- The host's write between steps keeps the invariant, changes no other byte and is what lw then loads from that address; that the model has this move is its choice (log entry 12) (R82, R41). -/
def Obligations.HostStoreKeepsInvariant : Prop :=
  ∀ (s : State) (addr v : Word), s.Inv →
    (∀ t, s.hostStore addr v = .ok t →
      t.Inv ∧ SameRegs s t ∧ t.pc = s.pc ∧ t.world = s.world ∧ t.inv = s.inv ∧ t.out = s.out ∧ t.cfg = s.cfg ∧
      t.gm.readWord addr.toNat = v ∧
      (∀ b, ¬ (addr.toNat ≤ b ∧ b < addr.toNat + 4) → t.readByte .general b = s.readByte .general b) ∧
      ∀ (rt rs : RegIdx) (off : Word), t.effAddr rs off = addr →
        ∃ u, exec (.lw rt off rs) t = .next u ∧ OnlyWritesReg t u rt v) ∧
    ((∃ t, s.hostStore addr v = .ok t) ↔ addr.toNat % 4 = 0 ∧ s.cfg.gmValid addr = true)

/-- Placing a word for the next fetch; loading a program this way is the model's choice (log entry 2) (R281, R42). -/
def Obligations.PlacedWordRunsNext : Prop :=
  ∀ (s : State) (w : Word) (i : Instr), s.cfg.ok = true → s.pcAligned = true → decode s.cfg.invPresent w = some i →
    (s.withFetchWord 32 w.toNat).cfg.ok = true ∧
    step (s.withFetchWord 32 w.toNat) = exec i (s.withFetchWord 32 w.toNat)
end

