-- ==== Sys2Proof/Laws/Boot.lean ====
section
/-! SUPPORT. What the checks of a configuration say, as propositions, and the laws of the program image. -/

namespace Sys2Proof

/-- The byte address lies inside the window. -/
theorem Window.contains_iff {w : Window} {a : Nat} :
    w.contains a = true ↔ w.base.toNat ≤ a ∧ a < w.base.toNat + 4 * w.cells := by
  simp [Window.contains, Window.limit]

/-- The window starts aligned, has a cell and lies inside the address space. -/
theorem Window.fits_iff {w : Window} :
    w.fits = true ↔ w.base.toNat % 4 = 0 ∧ 1 ≤ w.cells ∧ w.base.toNat + 4 * w.cells ≤ 2 ^ 32 := by
  simp [Window.fits, Window.limit, wordAligned, and_assoc]

/-- One window ends before the other starts. -/
theorem Window.disjoint_iff {v w : Window} :
    v.disjoint w = true ↔
      v.base.toNat + 4 * v.cells ≤ w.base.toNat ∨ w.base.toNat + 4 * w.cells ≤ v.base.toNat := by
  simp [Window.disjoint, Window.limit]

/-- General memory has the word exactly when a window of it has the address. -/
theorem Cfg.gmValid_iff {c : Cfg} {a : Word} :
    c.gmValid a = true ↔ ∃ g ∈ c.general, g.base.toNat ≤ a.toNat ∧ a.toNat < g.base.toNat + 4 * g.cells := by
  simp [Cfg.gmValid, Window.contains_iff]

/-- `Cfg.ok`, condition by condition (00_scope.md R9). -/
theorem Cfg.ok_iff {c : Cfg} :
    c.ok = true ↔
      c.world.fits = true ∧ c.inventory.base.toNat % 4 = 0 ∧
      (c.invPresent = true → c.inventory.fits = true ∧ c.world.disjoint c.inventory = true) ∧
      (∀ g ∈ c.general, g.fits = true ∧ g.disjoint c.world = true ∧
        (c.invPresent = true → g.disjoint c.inventory = true)) ∧
      Memory.wf c.gmInit ∧ Memory.within c.gmInit c.gmByte = true ∧
      c.resetPc.toNat % 4 = 0 ∧ c.hotbarReg ≠ 0#5 ∧ Program.wf c.prog := by
  simp only [Cfg.ok, wordAligned, Bool.and_eq_true, decide_eq_true_eq, Bool.or_eq_true, Bool.not_eq_true',
    List.all_eq_true, beq_iff_eq, ← Bool.not_eq_true, ← imp_iff_not_or]
  constructor
  · rintro ⟨⟨⟨⟨⟨⟨⟨⟨h1, h2⟩, h3⟩, h4⟩, h5⟩, h6⟩, h7⟩, h8⟩, h9⟩
    exact ⟨h1, h2, h3, fun g hg => ⟨(h4 g hg).1.1, (h4 g hg).1.2, (h4 g hg).2⟩, h5, h6, h7, h8, h9⟩
  · rintro ⟨h1, h2, h3, h4, h5, h6, h7, h8, h9⟩
    exact ⟨⟨⟨⟨⟨⟨⟨⟨h1, h2⟩, h3⟩, fun g hg => ⟨⟨(h4 g hg).1, (h4 g hg).2.1⟩, (h4 g hg).2.2⟩⟩, h5⟩, h6⟩, h7⟩, h8⟩, h9⟩

/-- A word general memory has lies whole in it, in an accepted configuration. -/
theorem Cfg.gmByte_of_gmValid {c : Cfg} (h : c.ok = true) {a : Word} (ha : a.toNat % 4 = 0) (hv : c.gmValid a = true)
    {k : Nat} (hk : k < 4) : c.gmByte (a.toNat + k) = true := by
  obtain ⟨g, hg, h1, h2⟩ := Cfg.gmValid_iff.mp hv
  have hf := Window.fits_iff.mp ((Cfg.ok_iff.mp h).2.2.2.1 g hg).1
  exact List.any_eq_true.mpr ⟨g, hg, Window.contains_iff.mpr (by omega)⟩

/-! ### The program image -/

/-- A word of the image is one of its entries. -/
theorem Program.mem_of_lookup {p : Program} {a : Nat} {w : Word} (h : p.lookup a = some w) : (a, w) ∈ p := by
  induction p with
  | nil => simp [Program.lookup] at h
  | cons x p ih =>
    simp only [Program.lookup] at h
    split at h
    · next e => cases h; subst e; simp
    · simp [ih h]

/-- The entries after placing a word. -/
theorem Program.mem_place {p : Program} {a : Nat} {w : Word} {c : Nat × Word} (h : c ∈ p.place a w) :
    c ∈ p ∨ c = (a, w) := by
  induction p with
  | nil => simpa [Program.place] using h
  | cons x p ih =>
    simp only [Program.place] at h
    split_ifs at h <;> simp only [List.mem_cons] at h ⊢ <;> tauto

/-- Placing a word at a word address keeps the image well-formed. -/
theorem Program.wf_place {p : Program} (hp : p.wf) {a : Nat} (ha : a % 4 = 0) (hlt : a < 2 ^ 32) (w : Word) :
    (p.place a w).wf := by
  refine ⟨?_, fun c hc => ?_⟩
  · have hs := hp.1
    clear hp
    induction p with
    | nil => simp [Program.place]
    | cons x p ih =>
      obtain ⟨k, y⟩ := x
      obtain ⟨hk, htl⟩ := List.pairwise_cons.mp hs
      simp only [Program.place]
      split_ifs with h1 h2
      · refine List.pairwise_cons.mpr ⟨fun c hc => ?_, hs⟩
        rcases List.mem_cons.mp hc with rfl | hc
        · exact h1
        · exact Nat.lt_trans h1 (hk c hc)
      · subst h2; exact List.pairwise_cons.mpr ⟨hk, htl⟩
      · refine List.pairwise_cons.mpr ⟨fun c hc => ?_, ih htl⟩
        rcases Program.mem_place hc with hc | rfl
        · exact hk c hc
        · exact Nat.lt_of_le_of_ne (Nat.le_of_not_lt h1) (Ne.symm h2)
  · rcases Program.mem_place hc with hc | rfl
    · exact hp.2 c hc
    · exact ⟨by simp [wordAligned, ha], hlt⟩

/-- Placing a word leaves every other address's word alone. -/
theorem Program.lookup_place {p : Program} (hp : p.wf) (a : Nat) (w : Word) (b : Nat) :
    (p.place a w).lookup b = if b = a then some w else p.lookup b := by
  induction p with
  | nil => simp [Program.place, Program.lookup]
  | cons x p ih =>
    obtain ⟨k, y⟩ := x
    have hp' : Program.wf p := ⟨(List.pairwise_cons.mp hp.1).2, fun c hc => hp.2 c (by simp [hc])⟩
    simp only [Program.place]
    split_ifs with h1 h2 h3 <;> simp only [Program.lookup, ih hp'] <;> split_ifs <;> first | rfl | omega

end Sys2Proof
end

