-- ==== Sys2Proof/Laws/Decode.lean ====
section
/-! SUPPORT. The fields of an assembled word, the extensions of an immediate, and the table's own checks. -/

namespace Sys2Proof

/-! ### Fields of the three formats (30_encoding.md R102, R103, R105) -/

section
variable (fn op : BitVec 6) (rd rs rt : RegIdx) (imm : BitVec 16) (tgt : BitVec 26)

theorem encodeR_getLsbD (k : Nat) : (encodeR fn rd rs rt).getLsbD k =
    (if k < 6 then fn.getLsbD k else if k < 11 then false else if k < 16 then rd.getLsbD (k - 11)
     else if k < 21 then rt.getLsbD (k - 16) else if k < 26 then rs.getLsbD (k - 21) else false) := by
  have e : ∀ x, (0#5 : BitVec 5).getLsbD x = false := fun x => by simp
  have z : ∀ x, (0#6 : BitVec 6).getLsbD x = false := fun x => by simp
  simp only [encodeR, BitVec.getLsbD_append, Nat.sub_sub, e, z]
  by_cases h0 : k < 6
  · simp [h0]
  by_cases h1 : k < 11
  · simp [h0, h1, show k - 6 < 5 by omega]
  by_cases h2 : k < 16
  · simp [h0, h1, h2, show ¬ k - 6 < 5 by omega, show k - 11 < 5 by omega]
  by_cases h3 : k < 21
  · simp [h0, h1, h2, h3, show ¬ k - 6 < 5 by omega, show ¬ k - 11 < 5 by omega, show k - 16 < 5 by omega]
  by_cases h4 : k < 26
  · simp [h0, h1, h2, h3, h4, show ¬ k - 6 < 5 by omega, show ¬ k - 11 < 5 by omega, show ¬ k - 16 < 5 by omega,
      show k - 21 < 5 by omega]
  · simp [h0, h1, h2, h3, h4, show ¬ k - 6 < 5 by omega, show ¬ k - 11 < 5 by omega, show ¬ k - 16 < 5 by omega,
      show ¬ k - 21 < 5 by omega]

theorem encodeI_getLsbD (k : Nat) : (encodeI op rs rt imm).getLsbD k =
    (if k < 16 then imm.getLsbD k else if k < 21 then rt.getLsbD (k - 16)
     else if k < 26 then rs.getLsbD (k - 21) else op.getLsbD (k - 26)) := by
  simp only [encodeI, BitVec.getLsbD_append, Nat.sub_sub]
  by_cases h2 : k < 16
  · simp [h2]
  by_cases h3 : k < 21
  · simp [h2, h3, show k - 16 < 5 by omega]
  by_cases h4 : k < 26
  · simp [h2, h3, h4, show ¬ k - 16 < 5 by omega, show k - 21 < 5 by omega]
  · simp [h2, h3, h4, show ¬ k - 16 < 5 by omega, show ¬ k - 21 < 5 by omega]

theorem encodeJ_getLsbD (k : Nat) : (encodeJ op tgt).getLsbD k =
    (if k < 26 then tgt.getLsbD k else op.getLsbD (k - 26)) := by
  simp only [encodeJ, BitVec.getLsbD_append]

@[simp] theorem fieldRd_encodeR : fieldRd (encodeR fn rd rs rt) = rd := by
  apply BitVec.eq_of_getLsbD_eq; intro i hi
  simp [fieldRd, encodeR_getLsbD, hi, show ¬ 11 + i < 6 by omega, show 11 + i < 16 by omega]

@[simp] theorem fieldRs_encodeR : fieldRs (encodeR fn rd rs rt) = rs := by
  apply BitVec.eq_of_getLsbD_eq; intro i hi
  simp [fieldRs, encodeR_getLsbD, hi, show ¬ 21 + i < 6 by omega, show ¬ 21 + i < 11 by omega,
    show ¬ 21 + i < 16 by omega, show 21 + i < 26 by omega]

@[simp] theorem fieldRt_encodeR : fieldRt (encodeR fn rd rs rt) = rt := by
  apply BitVec.eq_of_getLsbD_eq; intro i hi
  simp [fieldRt, encodeR_getLsbD, hi, show ¬ 16 + i < 6 by omega, show ¬ 16 + i < 11 by omega,
    show 16 + i < 21 by omega]

@[simp] theorem fieldRs_encodeI : fieldRs (encodeI op rs rt imm) = rs := by
  apply BitVec.eq_of_getLsbD_eq; intro i hi
  simp [fieldRs, encodeI_getLsbD, hi, show ¬ 21 + i < 16 by omega, show 21 + i < 26 by omega]

@[simp] theorem fieldRt_encodeI : fieldRt (encodeI op rs rt imm) = rt := by
  apply BitVec.eq_of_getLsbD_eq; intro i hi
  simp [fieldRt, encodeI_getLsbD, hi, show 16 + i < 21 by omega]

@[simp] theorem fieldImm_encodeI : fieldImm (encodeI op rs rt imm) = imm := by
  apply BitVec.eq_of_getLsbD_eq; intro i hi
  simp [fieldImm, encodeI_getLsbD, hi]

@[simp] theorem fieldTgt_encodeJ : fieldTgt (encodeJ op tgt) = tgt := by
  apply BitVec.eq_of_getLsbD_eq; intro i hi
  simp [fieldTgt, encodeJ_getLsbD, hi]

end

/-! ### Immediates (30_encoding.md R106) -/

theorem sext16_imm16 {v : Word} (h : isSext16 v = true) : sext16 (imm16 v) = v := (eq_of_beq h).symm

theorem zext16_imm16 {v : Word} (h : isZext16 v = true) : zext16 (imm16 v) = v := (eq_of_beq h).symm

theorem zext26_low {v : Word} (h : isZext26 v = true) : zext26 (v.extractLsb' 0 26) = v := (eq_of_beq h).symm

@[simp] theorem imm16_sext16 (x : BitVec 16) : imm16 (sext16 x) = x := by
  apply BitVec.eq_of_getLsbD_eq; intro i hi
  rw [imm16, sext16, BitVec.getLsbD_extractLsb', BitVec.getLsbD_signExtend]
  simp [hi, show i < 32 by omega]

@[simp] theorem imm16_zext16 (x : BitVec 16) : imm16 (zext16 x) = x := by
  apply BitVec.eq_of_getLsbD_eq; intro i hi
  simp [imm16, zext16, hi, show i < 32 by omega]

@[simp] theorem low_zext26 (x : BitVec 26) : (zext26 x).extractLsb' 0 26 = x := by
  apply BitVec.eq_of_getLsbD_eq; intro i hi
  simp [zext26, hi, show i < 32 by omega]

@[simp] theorem isSext16_sext16 (x : BitVec 16) : isSext16 (sext16 x) = true := by
  rw [isSext16, beq_iff_eq]; exact congrArg (BitVec.signExtend 32) (imm16_sext16 x).symm

@[simp] theorem isZext16_zext16 (x : BitVec 16) : isZext16 (zext16 x) = true := by
  rw [isZext16, beq_iff_eq]; exact congrArg (BitVec.setWidth 32) (imm16_zext16 x).symm

@[simp] theorem isZext26_zext26 (x : BitVec 26) : isZext26 (zext26 x) = true := by
  rw [isZext26, beq_iff_eq]; exact congrArg (BitVec.setWidth 32) (low_zext26 x).symm

/-! ### The table -/

/-- Every identity is a row. -/
theorem mem_rowOrder (id : InstrId) : id ∈ rowOrder := by cases id <;> decide

@[simp] theorem template_id (id : InstrId) : (template id).id = id := by cases id <;> rfl

/-- The rows of the table are the templates of the present identities. -/
theorem mem_templateTable {invPresent : Bool} {t : Template} :
    t ∈ templateTable invPresent ↔ t.id.present invPresent = true ∧ t = template t.id := by
  simp only [templateTable, List.mem_map, List.mem_filter]
  constructor
  · rintro ⟨id, ⟨-, h⟩, rfl⟩; simp [h]
  · rintro ⟨h1, h2⟩; exact ⟨t.id, ⟨mem_rowOrder _, h1⟩, h2.symm⟩

/-- A word that two rows match makes them overlap. -/
theorem overlaps_of_matches {a b : Template} {w : Word} (ha : a.matches w = true) (hb : b.matches w = true) :
    a.overlaps b = true := by
  rw [Template.matches, beq_iff_eq] at ha hb
  rw [Template.overlaps, beq_iff_eq, ← ha, ← hb]
  apply BitVec.eq_of_getLsbD_eq; intro i _
  simp only [BitVec.getLsbD_and, BitVec.getLsbD_xor, BitVec.getLsbD_zero]
  cases w.getLsbD i <;> cases a.mask.getLsbD i <;> cases b.mask.getLsbD i <;> rfl

end Sys2Proof
end

