-- ==== Sys2Proof/Laws/Memory.lean ====
section
/-! SUPPORT. The laws of byte storage: a write is read back, leaves every other byte alone, and keeps the canonical form. -/

namespace Sys2Proof

@[simp] theorem Memory.readByte_nil (a : Nat) : Memory.readByte [] a = unlistedByte := rfl

@[simp] theorem Memory.readByte_cons (k : Nat) (b : Byte) (m : Memory) (a : Nat) :
    Memory.readByte ((k, b) :: m) a = if a = k then b else Memory.readByte m a := rfl

/-- An address below every listed one is not listed. -/
theorem Memory.readByte_below {m : Memory} {a : Nat} (h : ∀ c ∈ m, a < c.1) : Memory.readByte m a = unlistedByte := by
  induction m with
  | nil => rfl
  | cons c m ih =>
    have hc := h c (by simp)
    rw [show c = (c.1, c.2) from rfl, Memory.readByte_cons, if_neg (by omega)]
    exact ih fun x hx => h x (by simp [hx])

/-- A canonical memory's tail is canonical, and its head's address lies below the tail's. -/
theorem Memory.wf_cons {k : Nat} {b : Byte} {m : Memory} :
    Memory.wf ((k, b) :: m) ↔ (∀ c ∈ m, k < c.1) ∧ b ≠ unlistedByte ∧ Memory.wf m := by
  simp only [Memory.wf, List.pairwise_cons, List.forall_mem_cons]
  constructor
  · rintro ⟨⟨h1, h2⟩, h3, h4⟩; exact ⟨h1, h3, h2, h4⟩
  · rintro ⟨h1, h3, h2, h4⟩; exact ⟨⟨h1, h2⟩, h3, h4⟩

/-- Which entries a write can leave: those that were there, and the written one. -/
theorem Memory.mem_writeByte {m : Memory} {a : Nat} {b : Byte} {c : Host.Cell} (h : c ∈ m.writeByte a b) :
    c ∈ m ∨ c = (a, b) := by
  induction m with
  | nil => simp only [Memory.writeByte] at h; split at h <;> simp_all
  | cons x m ih =>
    obtain ⟨k, y⟩ := x
    simp only [Memory.writeByte] at h
    split_ifs at h <;> simp only [List.mem_cons] at h ⊢ <;> tauto

/-- Reading any byte after a write to a canonical memory. -/
theorem Memory.readByte_writeByte {m : Memory} (hm : m.wf) (a : Nat) (b : Byte) (x : Nat) :
    (m.writeByte a b).readByte x = if x = a then b else m.readByte x := by
  induction m with
  | nil => by_cases hb : b = unlistedByte <;> simp [Memory.writeByte, hb]
  | cons c m ih =>
    obtain ⟨k, y⟩ := c
    obtain ⟨hk, -, hwf⟩ := Memory.wf_cons.mp hm
    have below : ∀ z, z ≤ k → Memory.readByte m z = unlistedByte :=
      fun z hz => Memory.readByte_below fun c hc => by have := hk c hc; omega
    rcases Nat.lt_trichotomy a k with h | h | h
    · have ha := below a (by omega)
      by_cases hb : b = unlistedByte
      · simp only [Memory.writeByte, h, if_true, hb, Memory.readByte_cons]
        split_ifs with h1 h2 <;> first | omega | simp_all
      · simp [Memory.writeByte, h, hb]
    · subst h
      have ha := below a (Nat.le_refl a)
      by_cases hb : b = unlistedByte
      · simp only [Memory.writeByte, Nat.lt_irrefl, if_false, if_true, hb, Memory.readByte_cons]
        split_ifs with h1 <;> simp_all
      · simp only [Memory.writeByte, Nat.lt_irrefl, if_false, if_true, hb, Memory.readByte_cons]
        split_ifs <;> rfl
    · have h1 : ¬ a < k := by omega
      have h2 : a ≠ k := by omega
      simp only [Memory.writeByte, h1, h2, if_false, Memory.readByte_cons, ih hwf]
      split_ifs <;> first | rfl | omega

/-- A write keeps the canonical form. -/
theorem Memory.wf_writeByte {m : Memory} (hm : m.wf) (a : Nat) (b : Byte) : (m.writeByte a b).wf := by
  induction m with
  | nil => by_cases hb : b = unlistedByte <;> simp [Memory.writeByte, Memory.wf, hb]
  | cons c m ih =>
    obtain ⟨k, y⟩ := c
    obtain ⟨hk, hy, hwf⟩ := Memory.wf_cons.mp hm
    simp only [Memory.writeByte]
    split_ifs with h1 h2 h3 h4
    · exact hm
    · refine Memory.wf_cons.mpr ⟨?_, h2, hm⟩
      intro c hc
      rcases List.mem_cons.mp hc with rfl | hc
      · exact h1
      · have := hk c hc; omega
    · exact hwf
    · subst h3; exact Memory.wf_cons.mpr ⟨hk, h4, hwf⟩
    · refine Memory.wf_cons.mpr ⟨?_, hy, ih hwf⟩
      intro c hc
      rcases Memory.mem_writeByte hc with hc | rfl
      · exact hk c hc
      · exact Nat.lt_of_le_of_ne (Nat.le_of_not_lt h1) (Ne.symm h3)

/-- A write inside the allowed addresses keeps the storage inside them. -/
theorem Memory.within_writeByte {m : Memory} {p : Nat → Bool} (hm : m.within p = true) {a : Nat} (b : Byte)
    (ha : p a = true) : (m.writeByte a b).within p = true := by
  simp only [Memory.within, List.all_eq_true] at hm ⊢
  intro c hc
  rcases Memory.mem_writeByte hc with hc | rfl
  · exact hm c hc
  · exact ha

/-- A stored word keeps the canonical form. -/
theorem Memory.wf_writeWord {m : Memory} (hm : m.wf) (a : Nat) (v : Word) : (m.writeWord a v).wf :=
  Memory.wf_writeByte (Memory.wf_writeByte (Memory.wf_writeByte (Memory.wf_writeByte hm _ _) _ _) _ _) _ _

/-- A stored word inside the allowed addresses keeps the storage inside them. -/
theorem Memory.within_writeWord {m : Memory} {p : Nat → Bool} (hm : m.within p = true) {a : Nat} (v : Word)
    (ha : ∀ k, k < 4 → p (a + k) = true) : (m.writeWord a v).within p = true :=
  Memory.within_writeByte (Memory.within_writeByte (Memory.within_writeByte (Memory.within_writeByte hm _
    (ha 0 (by omega))) _ (ha 1 (by omega))) _ (ha 2 (by omega))) _ (ha 3 (by omega))

/-- Reading any byte after a word is stored in a canonical memory. -/
theorem Memory.readByte_writeWord {m : Memory} (hm : m.wf) (a : Nat) (v : Word) (x : Nat) :
    (m.writeWord a v).readByte x = if a ≤ x ∧ x < a + 4 then byteOf v (x - a) else m.readByte x := by
  have h1 := Memory.wf_writeByte hm a (byteOf v 0)
  have h2 := Memory.wf_writeByte h1 (a + 1) (byteOf v 1)
  have h3 := Memory.wf_writeByte h2 (a + 2) (byteOf v 2)
  rw [Memory.writeWord, Memory.readByte_writeByte h3, Memory.readByte_writeByte h2, Memory.readByte_writeByte h1,
    Memory.readByte_writeByte hm]
  rcases lt_or_ge x a with h | h
  · simp only [show ¬ (a ≤ x ∧ x < a + 4) by omega, show x ≠ a + 3 by omega, show x ≠ a + 2 by omega,
      show x ≠ a + 1 by omega, show x ≠ a by omega, if_false]
  · obtain ⟨k, rfl⟩ := Nat.exists_eq_add_of_le h
    rcases Nat.lt_or_ge k 4 with hk | hk
    · interval_cases k <;> simp
    · simp only [show ¬ (a ≤ a + k ∧ a + k < a + 4) by omega, show a + k ≠ a + 3 by omega,
        show a + k ≠ a + 2 by omega, show a + k ≠ a + 1 by omega, show a + k ≠ a by omega, if_false]

/-- The four bytes of a word, put together again, are the word. -/
theorem bytes_append (v : Word) : (byteOf v 3 ++ byteOf v 2 ++ byteOf v 1 ++ byteOf v 0 : BitVec (8 + 8 + 8 + 8)) = v := by
  apply BitVec.eq_of_getLsbD_eq
  intro i hi
  simp only [byteOf, BitVec.getLsbD_append, BitVec.getLsbD_extractLsb']
  interval_cases i <;> simp

/-- A stored word is read back. -/
theorem Memory.readWord_writeWord {m : Memory} (hm : m.wf) (a : Nat) (v : Word) : (m.writeWord a v).readWord a = v := by
  have h : ∀ k, k < 4 → (m.writeWord a v).readByte (a + k) = byteOf v k := by
    intro k hk
    rw [Memory.readByte_writeWord hm, if_pos (by omega)]
    congr 1; omega
  have h0 := h 0 (by omega)
  rw [Nat.add_zero] at h0
  rw [Memory.readWord, h 3 (by omega), h 2 (by omega), h 1 (by omega), h0]
  exact bytes_append v

/-- A stored word leaves the words that do not overlap it alone. -/
theorem Memory.readWord_writeWord_apart {m : Memory} (hm : m.wf) {a x : Nat} (v : Word) (h : x + 4 ≤ a ∨ a + 4 ≤ x) :
    (m.writeWord a v).readWord x = m.readWord x := by
  have k : ∀ y, x ≤ y → y < x + 4 → (m.writeWord a v).readByte y = m.readByte y := by
    intro y h1 h2
    rw [Memory.readByte_writeWord hm, if_neg (by omega)]
  simp only [Memory.readWord]
  rw [k x (by omega) (by omega), k (x + 1) (by omega) (by omega), k (x + 2) (by omega) (by omega),
    k (x + 3) (by omega) (by omega)]

/-- Two canonical memories that read the same are the same list. -/
theorem Memory.ext_wf {m n : Memory} (hm : m.wf) (hn : n.wf) (h : ∀ a, m.readByte a = n.readByte a) : m = n := by
  have pos : ∀ {k : Nat} {b : Byte} {l : Memory}, Memory.wf ((k, b) :: l) →
      Memory.readByte ((k, b) :: l) k ≠ unlistedByte := by
    intro k b l hl
    simpa using (Memory.wf_cons.mp hl).2.1
  have low : ∀ {k : Nat} {b : Byte} {l : Memory} {a : Nat}, Memory.wf ((k, b) :: l) → a < k →
      Memory.readByte ((k, b) :: l) a = unlistedByte := by
    intro k b l a hl ha
    refine Memory.readByte_below fun c hc => ?_
    rcases List.mem_cons.mp hc with rfl | hc
    · exact ha
    · have := (Memory.wf_cons.mp hl).1 c hc; omega
  induction m generalizing n with
  | nil =>
    cases n with
    | nil => rfl
    | cons c n => exact absurd (h c.1).symm (pos hn)
  | cons c m ih =>
    obtain ⟨k, b⟩ := c
    cases n with
    | nil => exact absurd (h k) (pos hm)
    | cons e n =>
      obtain ⟨l, y⟩ := e
      have hkl : k = l := by
        rcases Nat.lt_trichotomy k l with hlt | rfl | hlt
        · exact absurd ((h k).trans (low hn hlt)) (pos hm)
        · rfl
        · exact absurd ((h l).symm.trans (low hm hlt)) (pos hn)
      subst hkl
      have hb : b = y := by simpa using h k
      subst hb
      obtain ⟨hk1, -, hm'⟩ := Memory.wf_cons.mp hm
      obtain ⟨hk2, -, hn'⟩ := Memory.wf_cons.mp hn
      rw [ih hm' hn' fun a => ?_]
      by_cases ha : a = k
      · subst ha
        rw [Memory.readByte_below fun c hc => hk1 c hc, Memory.readByte_below fun c hc => hk2 c hc]
      · simpa [ha] using h a

end Sys2Proof
end

