-- ==== Sys2Proof/Laws/State.lean ====
section
/-! SUPPORT. One lemma per field per update of the state, and reading a register after a write. -/

namespace Sys2Proof.Machine

/-! ### Register file -/

@[simp] theorem RegFile.read_zero (f : RegFile) : RegFile.read f 0#5 = 0#32 := rfl

@[simp] theorem RegFile.write_zero (f : RegFile) (v : Word) : RegFile.write f 0#5 v = f := rfl

theorem regCell_ne {i j : RegIdx} (hi : i ≠ 0#5) (hj : j ≠ 0#5) (h : i ≠ j) : i.toNat - 1 ≠ j.toNat - 1 := by
  have hi' : i.toNat ≠ 0 := fun e => hi (BitVec.eq_of_toNat_eq (by simpa using e))
  have hj' : j.toNat ≠ 0 := fun e => hj (BitVec.eq_of_toNat_eq (by simpa using e))
  have h' : i.toNat ≠ j.toNat := fun e => h (BitVec.eq_of_toNat_eq e)
  omega

/-- Reading after a write: the written register reads the value unless it is register 0, the others are unchanged. -/
theorem RegFile.read_write (f : RegFile) (i j : RegIdx) (v : Word) :
    RegFile.read (RegFile.write f i v) j = if j = 0#5 then 0#32 else if j = i then v else RegFile.read f j := by
  by_cases hj : j = 0#5
  · simp [hj]
  · by_cases hi : i = 0#5
    · subst hi; simp [hj]
    · by_cases h : j = i
      · subst h; simp [RegFile.read, RegFile.write, hj]
      · have := regCell_ne hi hj (Ne.symm h)
        simp [RegFile.read, RegFile.write, hj, hi, h, this]

@[simp] theorem RegFile.read_replicate (i : RegIdx) : RegFile.read (Vector.replicate 31 0#32) i = 0#32 := by
  unfold RegFile.read; split <;> simp

@[simp] theorem State.reg_zero (s : State) : s.reg 0#5 = 0#32 := rfl

theorem State.reg_setReg (s : State) (i j : RegIdx) (v : Word) :
    (s.setReg i v).reg j = if j = 0#5 then 0#32 else if j = i then v else s.reg j :=
  RegFile.read_write s.regs i j v

/-! ### Field by field -/

section
variable (s : State) (i : RegIdx) (v target : Word) (r : Region) (m : Memory)

@[simp] theorem State.setReg_pc : (s.setReg i v).pc = s.pc := rfl
@[simp] theorem State.setReg_gm : (s.setReg i v).gm = s.gm := rfl
@[simp] theorem State.setReg_world : (s.setReg i v).world = s.world := rfl
@[simp] theorem State.setReg_inv : (s.setReg i v).inv = s.inv := rfl
@[simp] theorem State.setReg_out : (s.setReg i v).out = s.out := rfl
@[simp] theorem State.setReg_cfg : (s.setReg i v).cfg = s.cfg := rfl
@[simp] theorem State.setReg_mem : (s.setReg i v).mem r = s.mem r := by cases r <;> rfl

@[simp] theorem State.setPc_pc : (s.setPc target).pc = target := rfl
@[simp] theorem State.setPc_regs : (s.setPc target).regs = s.regs := rfl
@[simp] theorem State.setPc_gm : (s.setPc target).gm = s.gm := rfl
@[simp] theorem State.setPc_world : (s.setPc target).world = s.world := rfl
@[simp] theorem State.setPc_inv : (s.setPc target).inv = s.inv := rfl
@[simp] theorem State.setPc_out : (s.setPc target).out = s.out := rfl
@[simp] theorem State.setPc_cfg : (s.setPc target).cfg = s.cfg := rfl
@[simp] theorem State.setPc_reg : (s.setPc target).reg i = s.reg i := rfl
@[simp] theorem State.setPc_mem : (s.setPc target).mem r = s.mem r := by cases r <;> rfl

@[simp] theorem State.setMem_pc : (s.setMem r m).pc = s.pc := by cases r <;> rfl
@[simp] theorem State.setMem_regs : (s.setMem r m).regs = s.regs := by cases r <;> rfl
@[simp] theorem State.setMem_out : (s.setMem r m).out = s.out := by cases r <;> rfl
@[simp] theorem State.setMem_cfg : (s.setMem r m).cfg = s.cfg := by cases r <;> rfl
@[simp] theorem State.setMem_reg : (s.setMem r m).reg i = s.reg i := by cases r <;> rfl
theorem State.mem_setMem (r' : Region) : (s.setMem r m).mem r' = if r' = r then m else s.mem r' := by
  cases r <;> cases r' <;> rfl

end

section
variable (s : State) (i : RegIdx) (r : Region) (w : Option (RegIdx × Word)) (c : Option CellWrite)
  (e : Option (List Byte))

@[simp] theorem State.applyReg_none : s.applyReg none = s := rfl
@[simp] theorem State.applyReg_some (v : Word) : s.applyReg (some (i, v)) = s.setReg i v := rfl
@[simp] theorem State.applyReg_pc : (s.applyReg w).pc = s.pc := by rcases w with _ | ⟨_, _⟩ <;> rfl
@[simp] theorem State.applyReg_out : (s.applyReg w).out = s.out := by rcases w with _ | ⟨_, _⟩ <;> rfl
@[simp] theorem State.applyReg_cfg : (s.applyReg w).cfg = s.cfg := by rcases w with _ | ⟨_, _⟩ <;> rfl
@[simp] theorem State.applyReg_mem : (s.applyReg w).mem r = s.mem r := by
  rcases w with _ | ⟨_, _⟩ <;> cases r <;> rfl

@[simp] theorem State.applyCell_none : s.applyCell none = s := rfl
@[simp] theorem State.applyCell_pc : (s.applyCell c).pc = s.pc := by cases c <;> simp [State.applyCell]
@[simp] theorem State.applyCell_out : (s.applyCell c).out = s.out := by cases c <;> simp [State.applyCell]
@[simp] theorem State.applyCell_cfg : (s.applyCell c).cfg = s.cfg := by cases c <;> simp [State.applyCell]
@[simp] theorem State.applyCell_reg : (s.applyCell c).reg i = s.reg i := by cases c <;> simp [State.applyCell]
theorem State.applyCell_mem (x : CellWrite) :
    (s.applyCell (some x)).mem r = if r = x.region then (s.mem r).writeWord x.addr x.value else s.mem r := by
  simp only [State.applyCell, State.mem_setMem]
  split
  · next h => rw [h]
  · rfl

@[simp] theorem State.applyEmit_none : s.applyEmit none = s := rfl
@[simp] theorem State.applyEmit_pc : (s.applyEmit e).pc = s.pc := by cases e <;> rfl
@[simp] theorem State.applyEmit_cfg : (s.applyEmit e).cfg = s.cfg := by cases e <;> rfl
@[simp] theorem State.applyEmit_reg : (s.applyEmit e).reg i = s.reg i := by cases e <;> rfl
@[simp] theorem State.applyEmit_mem : (s.applyEmit e).mem r = s.mem r := by cases e <;> cases r <;> rfl
@[simp] theorem State.applyEmit_out : (s.applyEmit e).out = s.out ++ e.getD [] := by
  cases e <;> simp [State.applyEmit]

end

/-! ### The committed state of a step, field by field -/

section
variable (s : State) (d : Delta)

@[simp] theorem State.commit_pc : (s.commit d).pc = d.redirect.getD s.pcNext := rfl
@[simp] theorem State.commit_cfg : (s.commit d).cfg = s.cfg := by simp [State.commit]
@[simp] theorem State.commit_out : (s.commit d).out = s.out ++ d.emit.getD [] := by simp [State.commit]
@[simp] theorem State.commit_reg (i : RegIdx) : (s.commit d).reg i = (s.applyReg d.reg).reg i := by simp [State.commit]
@[simp] theorem State.commit_mem (r : Region) : (s.commit d).mem r = (s.applyCell d.cell).mem r := by
  rcases hc : d.cell with _ | x
  · simp [State.commit, hc]
  · simp [State.commit, hc, State.applyCell_mem]

end

/-! ### The outcome of a step -/

section
variable {α : Type} (next : State → α) (fault : Fault → α) (refused : Refusal → α)

@[simp] theorem onOutcome_next (t : State) : onOutcome (.next t) next fault refused = next t := rfl
@[simp] theorem onOutcome_fault (f : Fault) : onOutcome (.fault f) next fault refused = fault f := rfl
@[simp] theorem onOutcome_refused (r : Refusal) : onOutcome (.refused r) next fault refused = refused r := rfl

end

/-! ### Reset -/

section
variable (s : State) (c : Cfg) (i : RegIdx)

@[simp] theorem State.resetTo_reg : (State.resetTo c).reg i = 0#32 := RegFile.read_replicate i
@[simp] theorem State.resetTo_pc : (State.resetTo c).pc = c.resetPc := rfl
@[simp] theorem State.resetTo_gm : (State.resetTo c).gm = c.gmInit := rfl
@[simp] theorem State.resetTo_world : (State.resetTo c).world = [] := rfl
@[simp] theorem State.resetTo_inv : (State.resetTo c).inv = [] := rfl
@[simp] theorem State.resetTo_out : (State.resetTo c).out = [] := rfl
@[simp] theorem State.resetTo_cfg : (State.resetTo c).cfg = c := rfl

@[simp] theorem State.resetPulse_reg : (s.resetPulse c).reg i = 0#32 := RegFile.read_replicate i
@[simp] theorem State.resetPulse_pc : (s.resetPulse c).pc = c.resetPc := rfl
@[simp] theorem State.resetPulse_gm : (s.resetPulse c).gm = s.gm := rfl
@[simp] theorem State.resetPulse_world : (s.resetPulse c).world = [] := rfl
@[simp] theorem State.resetPulse_inv : (s.resetPulse c).inv = [] := rfl
@[simp] theorem State.resetPulse_out : (s.resetPulse c).out = [] := rfl
@[simp] theorem State.resetPulse_cfg : (s.resetPulse c).cfg = c := rfl

end

/-! ### Placing the next word -/

section
variable (s : State) (nbits w : Nat)

@[simp] theorem State.withFetchWord_regs : (s.withFetchWord nbits w).regs = s.regs := rfl
@[simp] theorem State.withFetchWord_pc : (s.withFetchWord nbits w).pc = s.pc := rfl
@[simp] theorem State.withFetchWord_gm : (s.withFetchWord nbits w).gm = s.gm := rfl
@[simp] theorem State.withFetchWord_world : (s.withFetchWord nbits w).world = s.world := rfl
@[simp] theorem State.withFetchWord_inv : (s.withFetchWord nbits w).inv = s.inv := rfl
@[simp] theorem State.withFetchWord_out : (s.withFetchWord nbits w).out = s.out := rfl

/-- The next fetch presents the placed word. -/
theorem State.fetch_withFetchWord : (s.withFetchWord nbits w).fetch = some (BitVec.ofNat 32 (w % 2 ^ nbits)) := by
  have key : ∀ (p : Program) (a : Nat) (x : Word), Program.lookup (Program.place p a x) a = some x := by
    intro p a x
    induction p with
    | nil => simp [Program.place, Program.lookup]
    | cons h p ih =>
      obtain ⟨k, y⟩ := h
      simp only [Program.place]
      split_ifs with h1 h2
      · simp [Program.lookup]
      · simp [Program.lookup]
      · simp [Program.lookup, h2, ih]
  exact key _ _ _

end

end Sys2Proof.Machine
end

