-- ==== Sys2Proof/Laws/Ops.lean ====
section
/-! SUPPORT. For each shared operation, what it can answer, said once. -/

namespace Sys2Proof.Machine

/-- The general-memory check answers the address, unchanged, or that AddressFault. -/
theorem State.gmCheck_cases (s : State) (addr : Word) :
    (wordAligned addr.toNat = true ∧ s.cfg.gmValid addr = true ∧ s.gmCheck addr = .ok addr.toNat) ∨
    ((wordAligned addr.toNat = false ∨ s.cfg.gmValid addr = false) ∧ s.gmCheck addr = .error addr) := by
  unfold State.gmCheck
  cases h1 : wordAligned addr.toNat <;> cases h2 : s.cfg.gmValid addr <;> simp

/-- The cell check answers the cell's byte address for an index in range, and the truncated address otherwise. -/
theorem State.cellCheck_cases (s : State) (r : CellRegion) (idx : Int) :
    (0 ≤ idx ∧ idx < (s.cfg.window r).cells ∧ s.cellCheck r idx = .ok (s.cellAddr r idx.toNat)) ∨
    (¬ (0 ≤ idx ∧ idx < (s.cfg.window r).cells) ∧
      s.cellCheck r idx = .error (wrap32 (((s.cfg.window r).base.toNat : Int) + 4 * idx))) := by
  unfold State.cellCheck
  split
  · right; exact ⟨by omega, rfl⟩
  · left; exact ⟨by omega, by omega, rfl⟩

/-- `MemRead`: the stored word, or AddressFault at the unmodified address. -/
theorem State.memRead_cases (s : State) (addr : Word) :
    (wordAligned addr.toNat = true ∧ s.cfg.gmValid addr = true ∧
      s.memRead addr = .ok (s.gm.readWord addr.toNat)) ∨
    ((wordAligned addr.toNat = false ∨ s.cfg.gmValid addr = false) ∧ s.memRead addr = .error addr) := by
  rcases s.gmCheck_cases addr with ⟨h1, h2, h⟩ | ⟨h1, h⟩
  · exact .inl ⟨h1, h2, by rw [State.memRead, h]; rfl⟩
  · exact .inr ⟨h1, by rw [State.memRead, h]; rfl⟩

/-- `MemWrite`: the write of that word, or AddressFault at the unmodified address. -/
theorem State.memWrite_cases (s : State) (addr v : Word) :
    (wordAligned addr.toNat = true ∧ s.cfg.gmValid addr = true ∧
      s.memWrite addr v = .ok ⟨.general, addr.toNat, v⟩) ∨
    ((wordAligned addr.toNat = false ∨ s.cfg.gmValid addr = false) ∧ s.memWrite addr v = .error addr) := by
  rcases s.gmCheck_cases addr with ⟨h1, h2, h⟩ | ⟨h1, h⟩
  · exact .inl ⟨h1, h2, by rw [State.memWrite, h]; rfl⟩
  · exact .inr ⟨h1, by rw [State.memWrite, h]; rfl⟩

/-- `RegionRead`: the cell's value, or AddressFault at the truncated address. -/
theorem State.regionRead_cases (s : State) (r : CellRegion) (idx : Int) :
    (0 ≤ idx ∧ idx < (s.cfg.window r).cells ∧ s.regionRead r idx = .ok (s.cell r idx.toNat)) ∨
    (¬ (0 ≤ idx ∧ idx < (s.cfg.window r).cells) ∧
      s.regionRead r idx = .error (wrap32 (((s.cfg.window r).base.toNat : Int) + 4 * idx))) := by
  rcases s.cellCheck_cases r idx with ⟨h1, h2, h⟩ | ⟨h1, h⟩
  · exact .inl ⟨h1, h2, by rw [State.regionRead, h]; rfl⟩
  · exact .inr ⟨h1, by rw [State.regionRead, h]; rfl⟩

/-- `RegionWrite`: the write of that cell, or AddressFault at the truncated address. -/
theorem State.regionWrite_cases (s : State) (r : CellRegion) (idx : Int) (v : Word) :
    (0 ≤ idx ∧ idx < (s.cfg.window r).cells ∧
      s.regionWrite r idx v = .ok ⟨CellRegion.toRegion r, s.cellAddr r idx.toNat, v⟩) ∨
    (¬ (0 ≤ idx ∧ idx < (s.cfg.window r).cells) ∧
      s.regionWrite r idx v = .error (wrap32 (((s.cfg.window r).base.toNat : Int) + 4 * idx))) := by
  rcases s.cellCheck_cases r idx with ⟨h1, h2, h⟩ | ⟨h1, h⟩
  · exact .inl ⟨h1, h2, by rw [State.regionWrite, h]; rfl⟩
  · exact .inr ⟨h1, by rw [State.regionWrite, h]; rfl⟩

@[simp] theorem complete_ok (i : Instr) (s : State) (d : Delta) : complete i s (.ok d) = .next (s.commit d) := rfl

@[simp] theorem complete_error (i : Instr) (s : State) (a : Word) :
    complete i s (.error a) = .fault (.addressFault a (encode i) s.pc) := rfl

/-- A load ends with the register write, or with the read's AddressFault. -/
@[simp] theorem loadWith_ok (i : Instr) (s : State) (d : RegIdx) (v : Word) (f : Word → Word) :
    loadWith i s d (.ok v) f = .next (s.commit { reg := some (d, f v) }) := rfl

@[simp] theorem loadWith_error (i : Instr) (s : State) (d : RegIdx) (a : Word) (f : Word → Word) :
    loadWith i s d (.error a) f = .fault (.addressFault a (encode i) s.pc) := rfl

/-- A store ends with the cell write, or with the write's AddressFault. -/
@[simp] theorem storeWith_ok (i : Instr) (s : State) (w : CellWrite) :
    storeWith i s (.ok w) = .next (s.commit { cell := some w }) := rfl

@[simp] theorem storeWith_error (i : Instr) (s : State) (a : Word) :
    storeWith i s (.error a) = .fault (.addressFault a (encode i) s.pc) := rfl

@[simp] theorem ifInventory_present (i : Instr) (s : State) (k : Host.Outcome State Fault Refusal)
    (h : s.cfg.invPresent = true) : ifInventory i s k = k := by simp [ifInventory, h]

@[simp] theorem ifInventory_absent (i : Instr) (s : State) (k : Host.Outcome State Fault Refusal)
    (h : s.cfg.invPresent = false) : ifInventory i s k = .fault (.decodeMiss (encode i) s.pc) := by
  simp [ifInventory, h, raiseDecodeMiss]

/-- What the writes of one step do to memory, byte by byte, in a canonical memory. -/
theorem State.readByte_commit (s : State) (d : Delta) (r : Region) (a : Nat) (hm : (s.mem r).wf) :
    (s.commit d).readByte r a =
      match d.cell with
      | none => s.readByte r a
      | some w => if r = w.region ∧ w.addr ≤ a ∧ a < w.addr + 4 then byteOf w.value (a - w.addr) else s.readByte r a := by
  rcases hc : d.cell with _ | w
  · simp [State.readByte, hc]
  · simp only [State.readByte, State.commit_mem, hc, State.applyCell_mem]
    by_cases h : r = w.region
    · simp only [h, if_true, true_and]
      rw [← h, Memory.readByte_writeWord hm]
    · simp [h]

end Sys2Proof.Machine
end

