-- ==== Sys2Proof/Laws/Exec.lean ====
section
/-! SUPPORT. What one executed instruction can do, said once: later proofs take an instruction that gave a next state apart
with `exec_next` and do not unfold its meaning. -/

namespace Sys2Proof.Machine

theorem next_inj {s t : State} (h : (Host.Outcome.next s : Host.Outcome State Fault Refusal) = .next t) : s = t := by
  cases h; rfl

/-- The writes an instruction may make in a state: its own register, a checked cell of its own region, text only if it is
`chat`, and a redirect only if it is in the redirected state. -/
structure Delta.Allowed (d : Delta) (i : Instr) (s : State) : Prop where
  reg : ∀ p ∈ d.reg, writesReg s.cfg i = some p.1
  region : ∀ w ∈ d.cell, accessOf i = some (w.region, .write)
  cell : ∀ w ∈ d.cell,
    (∃ ea : Word, ea.toNat % 4 = 0 ∧ s.cfg.gmValid ea = true ∧ w.region = .general ∧ w.addr = ea.toNat) ∨
    ∃ (r : CellRegion) (idx : Nat), idx < (s.cfg.window r).cells ∧ (r = .inventory → s.cfg.invPresent = true) ∧
      w.region = CellRegion.toRegion r ∧ w.addr = s.cellAddr r idx
  emit : d.emit.isSome = true → i.id = .chat
  redirects : d.redirect.isSome = true → Redirects s i
  target : ∀ x ∈ d.redirect, (∃ disp, x = s.branchTarget disp) ∨ ∃ tgt, x = s.jumpTarget tgt

/-- An instruction that only writes its register is allowed to. -/
theorem Delta.allowed_reg {i : Instr} {s : State} {r : RegIdx} (v : Word) (h : writesReg s.cfg i = some r) :
    Delta.Allowed { reg := some (r, v) } i s :=
  ⟨by simpa using h, by simp, by simp, by simp, by simp, by simp⟩

/-- A conditional transfer that writes no register. -/
theorem Delta.allowed_redirectIf {i : Instr} {s : State} {c : Bool} {disp : Word} (h : c = true → Redirects s i) :
    Delta.Allowed { redirect := redirectIf c (s.branchTarget disp) } i s := by
  refine ⟨by simp, by simp, by simp, by simp, ?_, ?_⟩ <;> cases c <;> simp_all [redirectIf]

/-- A load that gives a next state wrote its register and nothing else. -/
theorem loadWith_next {i : Instr} {s t : State} {r : RegIdx} {x : Except Word Word} {f : Word → Word}
    (h : loadWith i s r x f = .next t) (hw : writesReg s.cfg i = some r) :
    ∃ d : Delta, t = s.commit d ∧ d.Allowed i s := by
  cases x with
  | error a => cases h
  | ok v => exact ⟨_, (next_inj h).symm, Delta.allowed_reg _ hw⟩

/-- The subtraction `sprint` makes, as the spec writes it. -/
theorem sub_one_eq (x : Word) : wrap32 ((uint x : Int) - 1) = x - 1#32 := by
  apply BitVec.eq_of_toNat_eq; simp [uint]; omega

/-- Whatever an instruction does on its way to a next state is one committed set of allowed writes. -/
theorem exec_next {i : Instr} {s t : State} (h : exec i s = .next t) : ∃ d : Delta, t = s.commit d ∧ d.Allowed i s := by
  cases i
  case lw rt off rs => exact loadWith_next h rfl
  case mine rt off rs => exact loadWith_next h rfl
  case ifmob rt off rs => exact loadWith_next h rfl
  case invld rt off rs =>
    simp only [exec, execInvld, ifInventory] at h
    split at h
    · exact loadWith_next h rfl
    · cases h
  case sw rt off rs =>
    simp only [exec, execSw] at h
    rcases s.memWrite_cases (s.effAddr rs off) (s.reg rt) with ⟨h1, h2, e⟩ | ⟨_, e⟩ <;> rw [e] at h
    · refine ⟨_, (next_inj h).symm, by simp, by simp [accessOf], ?_, by simp, by simp, by simp⟩
      intro w hw; cases hw; exact .inl ⟨_, by simpa [wordAligned] using h1, h2, rfl, rfl⟩
    · cases h
  case place rt off rs =>
    simp only [exec, execPlace] at h
    rcases s.regionWrite_cases .world (s.cellIndex rs off) (s.reg rt) with ⟨h1, h2, e⟩ | ⟨_, e⟩ <;> rw [e] at h
    · refine ⟨_, (next_inj h).symm, by simp, by simp [accessOf, CellRegion.toRegion], ?_, by simp, by simp, by simp⟩
      intro w hw; cases hw; exact .inr ⟨.world, (s.cellIndex rs off).toNat, by omega, by simp, rfl, rfl⟩
    · cases h
  case invst rt off rs =>
    simp only [exec, execInvst, ifInventory] at h
    split at h
    · next hp =>
      rcases s.regionWrite_cases .inventory (s.cellIndex rs off) (s.reg rt) with ⟨h1, h2, e⟩ | ⟨_, e⟩ <;> rw [e] at h
      · refine ⟨_, (next_inj h).symm, by simp, by simp [accessOf, CellRegion.toRegion], ?_, by simp, by simp, by simp⟩
        intro w hw; cases hw; exact .inr ⟨.inventory, (s.cellIndex rs off).toNat, by omega, fun _ => hp, rfl, rfl⟩
      · cases h
    · cases h
  case beq rs rt disp => exact ⟨_, (next_inj h).symm, Delta.allowed_redirectIf (by simp [Redirects])⟩
  case bne rs rt disp => exact ⟨_, (next_inj h).symm, Delta.allowed_redirectIf (by simp [Redirects])⟩
  case sprint rs disp =>
    refine ⟨_, (next_inj h).symm, by simp [writesReg], by simp, by simp, by simp, ?_, ?_⟩
    · simp only [redirectIf, Redirects, sub_one_eq]; split <;> simp_all
    · simp only [redirectIf]; split <;> simp
  case j tgt => exact ⟨_, (next_inj h).symm, by simp, by simp, by simp, by simp, by simp [Redirects], by simp⟩
  case chat rs => exact ⟨_, (next_inj h).symm, by simp, by simp, by simp, by simp [Instr.id], by simp, by simp⟩
  all_goals exact ⟨_, (next_inj h).symm, Delta.allowed_reg _ rfl⟩

/-- The effective address, as the spec writes it (43_load_store.md R208). -/
theorem State.effAddr_eq (s : State) (rs : RegIdx) (off : Word) :
    wrap32 ((uint (s.reg rs) : Int) + sint off) = s.effAddr rs off := by
  simp [State.effAddr, wrap32, uint, sint, BitVec.ofInt_add]

/-- How an executed instruction ends: a next state, AddressFault for a listed cause, or, with the Inventory absent, the
DecodeMiss of the two Inventory instructions. -/
theorem exec_cases (i : Instr) (s : State) :
    (∃ t, exec i s = .next t ∧ ∀ a, ¬ AddressFaultCause s a i) ∨
    (∃ a, AddressFaultCause s a i ∧ exec i s = .fault (.addressFault a (encode i) s.pc)) ∨
    (i.id.present s.cfg.invPresent = false ∧ exec i s = .fault (.decodeMiss (encode i) s.pc)) := by
  have gm : ∀ ea : Word, wordAligned ea.toNat = true → s.cfg.gmValid ea = true → ∀ a, ¬ GmAccessFails s ea a := by
    rintro ea h1 h2 a ⟨h | h, -⟩
    · simp [wordAligned] at h1; omega
    · simp [h2] at h
  have gm' : ∀ ea : Word, wordAligned ea.toNat = false ∨ s.cfg.gmValid ea = false → GmAccessFails s ea ea :=
    fun ea h => ⟨h.imp (by simp [wordAligned]) id, rfl⟩
  have cell : ∀ (r : CellRegion) (idx : Int), 0 ≤ idx → idx < (s.cfg.window r).cells → ∀ a, ¬ CellAccessFails s r idx a :=
    fun r idx h1 h2 a h => h.1 ⟨h1, h2⟩
  cases i
  case lw rt off rs =>
    rcases s.memRead_cases (s.effAddr rs off) with ⟨h1, h2, e⟩ | ⟨h1, e⟩
    · exact .inl ⟨_, by simp only [exec, execLw, e, loadWith_ok]; rfl, by
        simpa only [AddressFaultCause, State.effAddr_eq] using gm _ h1 h2⟩
    · exact .inr (.inl ⟨_, by simpa only [AddressFaultCause, State.effAddr_eq] using gm' _ h1, by
        simp only [exec, execLw, e, loadWith_error]⟩)
  case sw rt off rs =>
    rcases s.memWrite_cases (s.effAddr rs off) (s.reg rt) with ⟨h1, h2, e⟩ | ⟨h1, e⟩
    · exact .inl ⟨_, by simp only [exec, execSw, e, storeWith_ok]; rfl, by
        simpa only [AddressFaultCause, State.effAddr_eq] using gm _ h1 h2⟩
    · exact .inr (.inl ⟨_, by simpa only [AddressFaultCause, State.effAddr_eq] using gm' _ h1, by
        simp only [exec, execSw, e, storeWith_error]⟩)
  case mine rt off rs =>
    rcases s.regionRead_cases .world (s.cellIndex rs off) with ⟨h1, h2, e⟩ | ⟨h1, e⟩
    · exact .inl ⟨_, by simp only [exec, execMine, e, loadWith_ok]; rfl, cell _ _ h1 h2⟩
    · exact .inr (.inl ⟨_, ⟨h1, rfl⟩, by simp only [exec, execMine, e, loadWith_error]; rfl⟩)
  case ifmob rt off rs =>
    rcases s.regionRead_cases .world (s.cellIndex rs off) with ⟨h1, h2, e⟩ | ⟨h1, e⟩
    · exact .inl ⟨_, by simp only [exec, execIfmob, e, loadWith_ok]; rfl, cell _ _ h1 h2⟩
    · exact .inr (.inl ⟨_, ⟨h1, rfl⟩, by simp only [exec, execIfmob, e, loadWith_error]; rfl⟩)
  case place rt off rs =>
    rcases s.regionWrite_cases .world (s.cellIndex rs off) (s.reg rt) with ⟨h1, h2, e⟩ | ⟨h1, e⟩
    · exact .inl ⟨_, by simp only [exec, execPlace, e, storeWith_ok]; rfl, cell _ _ h1 h2⟩
    · exact .inr (.inl ⟨_, ⟨h1, rfl⟩, by simp only [exec, execPlace, e, storeWith_error]; rfl⟩)
  case invld rt off rs =>
    rcases hp : s.cfg.invPresent
    · exact .inr (.inr ⟨rfl, by simp [exec, execInvld, hp]⟩)
    · rcases s.regionRead_cases .inventory (s.cellIndex rs off) with ⟨h1, h2, e⟩ | ⟨h1, e⟩
      · exact .inl ⟨_, by simp only [exec, execInvld, ifInventory_present _ _ _ hp, e, loadWith_ok]; rfl, cell _ _ h1 h2⟩
      · exact .inr (.inl ⟨_, ⟨h1, rfl⟩, by
          simp only [exec, execInvld, ifInventory_present _ _ _ hp, e, loadWith_error]; rfl⟩)
  case invst rt off rs =>
    rcases hp : s.cfg.invPresent
    · exact .inr (.inr ⟨rfl, by simp [exec, execInvst, hp]⟩)
    · rcases s.regionWrite_cases .inventory (s.cellIndex rs off) (s.reg rt) with ⟨h1, h2, e⟩ | ⟨h1, e⟩
      · exact .inl ⟨_, by simp only [exec, execInvst, ifInventory_present _ _ _ hp, e, storeWith_ok]; rfl, cell _ _ h1 h2⟩
      · exact .inr (.inl ⟨_, ⟨h1, rfl⟩, by
          simp only [exec, execInvst, ifInventory_present _ _ _ hp, e, storeWith_error]; rfl⟩)
  all_goals exact .inl ⟨_, rfl, fun a h => h⟩

/-- A step that gives a next state ran the instruction that the word at the PC decodes to. -/
theorem step_next {s t : State} (h : step s = .next t) :
    s.cfg.ok = true ∧ s.pcAligned = true ∧
      ∃ w i, s.fetch = some w ∧ decode s.cfg.invPresent w = some i ∧ exec i s = .next t := by
  unfold step at h
  split at h; · cases h
  split at h; · cases h
  next h1 h2 =>
  split at h; · cases h
  next w hw =>
  split at h; · cases h
  next i hi => exact ⟨by simpa using h1, by simpa using h2, w, i, hw, hi, h⟩

end Sys2Proof.Machine
end

