-- ==== Sys2Proof/Laws/PerInstr.lean ====
section
/-! SUPPORT. Two families of statements about every instruction as syntax, one lemma per constructor: its word matches its
own template (40_decoder.md R142), and extracting that word's fields gives the instruction back (40_decoder.md R148, R150). -/

namespace Sys2Proof.Laws

/-- The instruction's word has the fixed bits of its own template. -/
def EncodeMatchesTemplate.Statement (i : Instr) : Prop := (template i.id).matches (encode i) = true

/-- The fields of a well-formed instruction's word are its operands. -/
def ExtractInvertsEncode.Statement (i : Instr) : Prop := i.wellFormed = true → extract i.id (encode i) = i

/-- Every R-format word but `smelt`'s has the fixed bits of its opcode, `sh` and `fn`. -/
theorem encodeR_fixed (fn : BitVec 6) (rd rs rt : RegIdx) :
    encodeR fn rd rs rt &&& 0xFC0007FF#32 = encodeR fn 0#5 0#5 0#5 := by
  apply BitVec.eq_of_getLsbD_eq
  intro k hk
  rw [BitVec.getLsbD_and, encodeR_getLsbD, encodeR_getLsbD]
  interval_cases k <;> simp

/-- `smelt` fixes `rt` as well. -/
theorem encodeR_fixed_rt (fn : BitVec 6) (rd rs rt : RegIdx) :
    encodeR fn rd rs rt &&& 0xFC1F07FF#32 = encodeR fn 0#5 0#5 rt := by
  apply BitVec.eq_of_getLsbD_eq
  intro k hk
  rw [BitVec.getLsbD_and, encodeR_getLsbD, encodeR_getLsbD]
  interval_cases k <;> simp

/-- An I-format word has the fixed bits of its opcode. -/
theorem encodeI_fixed (op : BitVec 6) (rs rt : RegIdx) (imm : BitVec 16) :
    encodeI op rs rt imm &&& 0xFC000000#32 = encodeI op 0#5 0#5 0#16 := by
  apply BitVec.eq_of_getLsbD_eq
  intro k hk
  rw [BitVec.getLsbD_and, encodeI_getLsbD, encodeI_getLsbD]
  interval_cases k <;> simp

/-- `sprint` fixes `rt` as well. -/
theorem encodeI_fixed_rt (op : BitVec 6) (rs rt : RegIdx) (imm : BitVec 16) :
    encodeI op rs rt imm &&& 0xFC1F0000#32 = encodeI op 0#5 rt 0#16 := by
  apply BitVec.eq_of_getLsbD_eq
  intro k hk
  rw [BitVec.getLsbD_and, encodeI_getLsbD, encodeI_getLsbD]
  interval_cases k <;> simp

/-- `hotbar` fixes `rs` and `rt` as well. -/
theorem encodeI_fixed_rs_rt (op : BitVec 6) (rs rt : RegIdx) (imm : BitVec 16) :
    encodeI op rs rt imm &&& 0xFFFF0000#32 = encodeI op rs rt 0#16 := by
  apply BitVec.eq_of_getLsbD_eq
  intro k hk
  rw [BitVec.getLsbD_and, encodeI_getLsbD, encodeI_getLsbD]
  interval_cases k <;> simp

/-- `chat` fixes `rt` and `imm16` as well. -/
theorem encodeI_fixed_rt_imm (op : BitVec 6) (rs rt : RegIdx) (imm : BitVec 16) :
    encodeI op rs rt imm &&& 0xFC1FFFFF#32 = encodeI op 0#5 rt imm := by
  apply BitVec.eq_of_getLsbD_eq
  intro k hk
  rw [BitVec.getLsbD_and, encodeI_getLsbD, encodeI_getLsbD]
  interval_cases k <;> simp

/-- A J-format word has the fixed bits of its opcode. -/
theorem encodeJ_fixed (op : BitVec 6) (tgt : BitVec 26) :
    encodeJ op tgt &&& 0xFC000000#32 = encodeJ op 0#26 := by
  apply BitVec.eq_of_getLsbD_eq
  intro k hk
  rw [BitVec.getLsbD_and, encodeJ_getLsbD, encodeJ_getLsbD]
  interval_cases k <;> simp

/-- Matching is equality under the mask. -/
theorem matches_of_eq {t : Template} {w x : Word} (h : w &&& t.mask = x) (hx : x = t.pattern) : t.matches w = true := by
  rw [Template.matches, beq_iff_eq, h, hx]

theorem EncodeMatchesTemplate.add (rd rs rt : RegIdx) : EncodeMatchesTemplate.Statement (.add rd rs rt) :=
  matches_of_eq (encodeR_fixed _ _ _ _) rfl

theorem EncodeMatchesTemplate.sub (rd rs rt : RegIdx) : EncodeMatchesTemplate.Statement (.sub rd rs rt) :=
  matches_of_eq (encodeR_fixed _ _ _ _) rfl

theorem EncodeMatchesTemplate.and (rd rs rt : RegIdx) : EncodeMatchesTemplate.Statement (.and rd rs rt) :=
  matches_of_eq (encodeR_fixed _ _ _ _) rfl

theorem EncodeMatchesTemplate.or (rd rs rt : RegIdx) : EncodeMatchesTemplate.Statement (.or rd rs rt) :=
  matches_of_eq (encodeR_fixed _ _ _ _) rfl

theorem EncodeMatchesTemplate.xor (rd rs rt : RegIdx) : EncodeMatchesTemplate.Statement (.xor rd rs rt) :=
  matches_of_eq (encodeR_fixed _ _ _ _) rfl

theorem EncodeMatchesTemplate.slt (rd rs rt : RegIdx) : EncodeMatchesTemplate.Statement (.slt rd rs rt) :=
  matches_of_eq (encodeR_fixed _ _ _ _) rfl

theorem EncodeMatchesTemplate.craft (rd rs rt : RegIdx) : EncodeMatchesTemplate.Statement (.craft rd rs rt) :=
  matches_of_eq (encodeR_fixed _ _ _ _) rfl

theorem EncodeMatchesTemplate.brew (rd rs rt : RegIdx) : EncodeMatchesTemplate.Statement (.brew rd rs rt) :=
  matches_of_eq (encodeR_fixed _ _ _ _) rfl

theorem EncodeMatchesTemplate.smelt (rd rs : RegIdx) : EncodeMatchesTemplate.Statement (.smelt rd rs) :=
  matches_of_eq (encodeR_fixed_rt _ _ _ _) rfl

theorem EncodeMatchesTemplate.j (tgt : Word) : EncodeMatchesTemplate.Statement (.j tgt) :=
  matches_of_eq (encodeJ_fixed _ _) rfl

theorem EncodeMatchesTemplate.beq (rs rt : RegIdx) (disp : Word) : EncodeMatchesTemplate.Statement (.beq rs rt disp) :=
  matches_of_eq (encodeI_fixed _ _ _ _) rfl

theorem EncodeMatchesTemplate.bne (rs rt : RegIdx) (disp : Word) : EncodeMatchesTemplate.Statement (.bne rs rt disp) :=
  matches_of_eq (encodeI_fixed _ _ _ _) rfl

theorem EncodeMatchesTemplate.addi (rt rs : RegIdx) (simm : Word) : EncodeMatchesTemplate.Statement (.addi rt rs simm) :=
  matches_of_eq (encodeI_fixed _ _ _ _) rfl

theorem EncodeMatchesTemplate.andi (rt rs : RegIdx) (zimm : Word) : EncodeMatchesTemplate.Statement (.andi rt rs zimm) :=
  matches_of_eq (encodeI_fixed _ _ _ _) rfl

theorem EncodeMatchesTemplate.ori (rt rs : RegIdx) (zimm : Word) : EncodeMatchesTemplate.Statement (.ori rt rs zimm) :=
  matches_of_eq (encodeI_fixed _ _ _ _) rfl

theorem EncodeMatchesTemplate.lw (rt : RegIdx) (off : Word) (rs : RegIdx) : EncodeMatchesTemplate.Statement (.lw rt off rs) :=
  matches_of_eq (encodeI_fixed _ _ _ _) rfl

theorem EncodeMatchesTemplate.sw (rt : RegIdx) (off : Word) (rs : RegIdx) : EncodeMatchesTemplate.Statement (.sw rt off rs) :=
  matches_of_eq (encodeI_fixed _ _ _ _) rfl

theorem EncodeMatchesTemplate.mine (rt : RegIdx) (off : Word) (rs : RegIdx) : EncodeMatchesTemplate.Statement (.mine rt off rs) :=
  matches_of_eq (encodeI_fixed _ _ _ _) rfl

theorem EncodeMatchesTemplate.place (rt : RegIdx) (off : Word) (rs : RegIdx) : EncodeMatchesTemplate.Statement (.place rt off rs) :=
  matches_of_eq (encodeI_fixed _ _ _ _) rfl

theorem EncodeMatchesTemplate.ifmob (rt : RegIdx) (off : Word) (rs : RegIdx) : EncodeMatchesTemplate.Statement (.ifmob rt off rs) :=
  matches_of_eq (encodeI_fixed _ _ _ _) rfl

theorem EncodeMatchesTemplate.invld (rt : RegIdx) (off : Word) (rs : RegIdx) : EncodeMatchesTemplate.Statement (.invld rt off rs) :=
  matches_of_eq (encodeI_fixed _ _ _ _) rfl

theorem EncodeMatchesTemplate.invst (rt : RegIdx) (off : Word) (rs : RegIdx) : EncodeMatchesTemplate.Statement (.invst rt off rs) :=
  matches_of_eq (encodeI_fixed _ _ _ _) rfl

theorem EncodeMatchesTemplate.hotbar (simm : Word) : EncodeMatchesTemplate.Statement (.hotbar simm) :=
  matches_of_eq (encodeI_fixed_rs_rt _ _ _ _) rfl

theorem EncodeMatchesTemplate.chat (rs : RegIdx) : EncodeMatchesTemplate.Statement (.chat rs) :=
  matches_of_eq (encodeI_fixed_rt_imm _ _ _ _) rfl

theorem EncodeMatchesTemplate.sprint (rs : RegIdx) (disp : Word) : EncodeMatchesTemplate.Statement (.sprint rs disp) :=
  matches_of_eq (encodeI_fixed_rt _ _ _ _) rfl

theorem ExtractInvertsEncode.add (rd rs rt : RegIdx) : ExtractInvertsEncode.Statement (.add rd rs rt) := by
  intro _
  simp [Instr.id, extract, encode]

theorem ExtractInvertsEncode.sub (rd rs rt : RegIdx) : ExtractInvertsEncode.Statement (.sub rd rs rt) := by
  intro _
  simp [Instr.id, extract, encode]

theorem ExtractInvertsEncode.and (rd rs rt : RegIdx) : ExtractInvertsEncode.Statement (.and rd rs rt) := by
  intro _
  simp [Instr.id, extract, encode]

theorem ExtractInvertsEncode.or (rd rs rt : RegIdx) : ExtractInvertsEncode.Statement (.or rd rs rt) := by
  intro _
  simp [Instr.id, extract, encode]

theorem ExtractInvertsEncode.xor (rd rs rt : RegIdx) : ExtractInvertsEncode.Statement (.xor rd rs rt) := by
  intro _
  simp [Instr.id, extract, encode]

theorem ExtractInvertsEncode.slt (rd rs rt : RegIdx) : ExtractInvertsEncode.Statement (.slt rd rs rt) := by
  intro _
  simp [Instr.id, extract, encode]

theorem ExtractInvertsEncode.craft (rd rs rt : RegIdx) : ExtractInvertsEncode.Statement (.craft rd rs rt) := by
  intro _
  simp [Instr.id, extract, encode]

theorem ExtractInvertsEncode.brew (rd rs rt : RegIdx) : ExtractInvertsEncode.Statement (.brew rd rs rt) := by
  intro _
  simp [Instr.id, extract, encode]

theorem ExtractInvertsEncode.smelt (rd rs : RegIdx) : ExtractInvertsEncode.Statement (.smelt rd rs) := by
  intro _
  simp [Instr.id, extract, encode]

theorem ExtractInvertsEncode.j (tgt : Word) : ExtractInvertsEncode.Statement (.j tgt) := by
  intro h
  rw [Instr.wellFormed] at h
  simp [Instr.id, extract, encode, zext26_low h]

theorem ExtractInvertsEncode.beq (rs rt : RegIdx) (disp : Word) : ExtractInvertsEncode.Statement (.beq rs rt disp) := by
  intro h
  rw [Instr.wellFormed] at h
  simp [Instr.id, extract, encode, sext16_imm16 h]

theorem ExtractInvertsEncode.bne (rs rt : RegIdx) (disp : Word) : ExtractInvertsEncode.Statement (.bne rs rt disp) := by
  intro h
  rw [Instr.wellFormed] at h
  simp [Instr.id, extract, encode, sext16_imm16 h]

theorem ExtractInvertsEncode.addi (rt rs : RegIdx) (simm : Word) : ExtractInvertsEncode.Statement (.addi rt rs simm) := by
  intro h
  rw [Instr.wellFormed] at h
  simp [Instr.id, extract, encode, sext16_imm16 h]

theorem ExtractInvertsEncode.andi (rt rs : RegIdx) (zimm : Word) : ExtractInvertsEncode.Statement (.andi rt rs zimm) := by
  intro h
  rw [Instr.wellFormed] at h
  simp [Instr.id, extract, encode, zext16_imm16 h]

theorem ExtractInvertsEncode.ori (rt rs : RegIdx) (zimm : Word) : ExtractInvertsEncode.Statement (.ori rt rs zimm) := by
  intro h
  rw [Instr.wellFormed] at h
  simp [Instr.id, extract, encode, zext16_imm16 h]

theorem ExtractInvertsEncode.lw (rt : RegIdx) (off : Word) (rs : RegIdx) : ExtractInvertsEncode.Statement (.lw rt off rs) := by
  intro h
  rw [Instr.wellFormed] at h
  simp [Instr.id, extract, encode, sext16_imm16 h]

theorem ExtractInvertsEncode.sw (rt : RegIdx) (off : Word) (rs : RegIdx) : ExtractInvertsEncode.Statement (.sw rt off rs) := by
  intro h
  rw [Instr.wellFormed] at h
  simp [Instr.id, extract, encode, sext16_imm16 h]

theorem ExtractInvertsEncode.mine (rt : RegIdx) (off : Word) (rs : RegIdx) : ExtractInvertsEncode.Statement (.mine rt off rs) := by
  intro h
  rw [Instr.wellFormed] at h
  simp [Instr.id, extract, encode, sext16_imm16 h]

theorem ExtractInvertsEncode.place (rt : RegIdx) (off : Word) (rs : RegIdx) : ExtractInvertsEncode.Statement (.place rt off rs) := by
  intro h
  rw [Instr.wellFormed] at h
  simp [Instr.id, extract, encode, sext16_imm16 h]

theorem ExtractInvertsEncode.ifmob (rt : RegIdx) (off : Word) (rs : RegIdx) : ExtractInvertsEncode.Statement (.ifmob rt off rs) := by
  intro h
  rw [Instr.wellFormed] at h
  simp [Instr.id, extract, encode, sext16_imm16 h]

theorem ExtractInvertsEncode.invld (rt : RegIdx) (off : Word) (rs : RegIdx) : ExtractInvertsEncode.Statement (.invld rt off rs) := by
  intro h
  rw [Instr.wellFormed] at h
  simp [Instr.id, extract, encode, sext16_imm16 h]

theorem ExtractInvertsEncode.invst (rt : RegIdx) (off : Word) (rs : RegIdx) : ExtractInvertsEncode.Statement (.invst rt off rs) := by
  intro h
  rw [Instr.wellFormed] at h
  simp [Instr.id, extract, encode, sext16_imm16 h]

theorem ExtractInvertsEncode.hotbar (simm : Word) : ExtractInvertsEncode.Statement (.hotbar simm) := by
  intro h
  rw [Instr.wellFormed] at h
  simp [Instr.id, extract, encode, sext16_imm16 h]

theorem ExtractInvertsEncode.chat (rs : RegIdx) : ExtractInvertsEncode.Statement (.chat rs) := by
  intro _
  simp [Instr.id, extract, encode]

theorem ExtractInvertsEncode.sprint (rs : RegIdx) (disp : Word) : ExtractInvertsEncode.Statement (.sprint rs disp) := by
  intro h
  rw [Instr.wellFormed] at h
  simp [Instr.id, extract, encode, sext16_imm16 h]

end Sys2Proof.Laws
end

