-- ==== Sys2Proof/Tests/Slice0.lean ====
section
/-! SUPPORT. Tests: the checks of well-formedness, one written-out word per instruction, at most two steps per instruction
with the results of 95_test_vectors.md, and for each obligation with hypotheses a concrete case that meets them. -/

namespace Sys2Proof.Tests

open Sys2Proof Sys2Proof.Machine

/-! ### Helpers -/

/-- The reference machine right after reset, with some registers set and `w` placed at the PC. -/
def start (regs : List (RegIdx × Word)) (w : Word) : State :=
  (regs.foldl (fun s p => s.setReg p.1 p.2) State.reset).withFetchWord 32 w.toNat

/-- The same with another PC. -/
def startAt (pc : Word) (regs : List (RegIdx × Word)) (w : Word) : State :=
  ((regs.foldl (fun s p => s.setReg p.1 p.2) State.reset).setPc pc).withFetchWord 32 w.toNat

/-- What is seen of the state after a step that does not fault. -/
def seen {α : Type} (s : State) (look : State → α) : Option α :=
  onOutcome (step s) (fun t => some (look t)) (fun _ => none) (fun _ => none)

/-- The fault of a step, as kind and address. -/
def faultOf (s : State) : Option (BitVec 2 × Word) :=
  onOutcome (step s) (fun _ => none) (fun f => some ((Fault.report f).kind, (Fault.report f).addr)) (fun _ => none)

/-- The refusal of a step. -/
def refusalOf (s : State) : Option Refusal := onOutcome (step s) (fun _ => none) (fun _ => none) some

/-! ### WellFormed refuses an immediate its field cannot carry: one ill-formed term per check -/

theorem test_wf_j : Instr.wellFormed (.j 0x04000000#32) = false := by decide
theorem test_wf_beq : Instr.wellFormed (.beq 1 2 0x00008000#32) = false := by decide
theorem test_wf_bne : Instr.wellFormed (.bne 1 2 0xFFFF7FFF#32) = false := by decide
theorem test_wf_addi : Instr.wellFormed (.addi 1 2 0x00010000#32) = false := by decide
theorem test_wf_andi : Instr.wellFormed (.andi 1 2 0xFFFF8000#32) = false := by decide
theorem test_wf_ori : Instr.wellFormed (.ori 1 2 0x00010000#32) = false := by decide
theorem test_wf_lw : Instr.wellFormed (.lw 1 0x00008000#32 2) = false := by decide
theorem test_wf_sw : Instr.wellFormed (.sw 1 0x0000FFFF#32 2) = false := by decide
theorem test_wf_mine : Instr.wellFormed (.mine 1 0x00008000#32 2) = false := by decide
theorem test_wf_place : Instr.wellFormed (.place 1 0x80000000#32 2) = false := by decide
theorem test_wf_ifmob : Instr.wellFormed (.ifmob 1 0x00008000#32 2) = false := by decide
theorem test_wf_invld : Instr.wellFormed (.invld 1 0x00008000#32 2) = false := by decide
theorem test_wf_invst : Instr.wellFormed (.invst 1 0x00008000#32 2) = false := by decide
theorem test_wf_hotbar : Instr.wellFormed (.hotbar 0x0000FF9C#32) = false := by decide
theorem test_wf_sprint : Instr.wellFormed (.sprint 1 0x0000FFFE#32) = false := by decide
theorem test_wf_accepts : Instr.wellFormed (.hotbar 0xFFFFFF9C#32) = true ∧ Instr.wellFormed (.j 0x03FFFFFF#32) = true ∧
    Instr.wellFormed (.ori 1 2 0x0000FFFF#32) = true ∧ Instr.wellFormed (.lw 1 0xFFFF8000#32 2) = true := by decide

/-! ### Every constructor's decoding: the word written from the pattern column of 30_encoding.md R108 -/

theorem test_decode_add : decode true (0b000000#6 ++ 0b00001#5 ++ 0b00010#5 ++ 0b00011#5 ++ 0b00000#5 ++ 0b100000#6) =
    some (.add 3 1 2) := by decide
theorem test_decode_sub : decode true (0b000000#6 ++ 0b00001#5 ++ 0b00010#5 ++ 0b00011#5 ++ 0b00000#5 ++ 0b100010#6) =
    some (.sub 3 1 2) := by decide
theorem test_decode_and : decode true (0b000000#6 ++ 0b00001#5 ++ 0b00010#5 ++ 0b00011#5 ++ 0b00000#5 ++ 0b100100#6) =
    some (.and 3 1 2) := by decide
theorem test_decode_or : decode true (0b000000#6 ++ 0b00001#5 ++ 0b00010#5 ++ 0b00011#5 ++ 0b00000#5 ++ 0b100101#6) =
    some (.or 3 1 2) := by decide
theorem test_decode_xor : decode true (0b000000#6 ++ 0b00001#5 ++ 0b00010#5 ++ 0b00011#5 ++ 0b00000#5 ++ 0b100110#6) =
    some (.xor 3 1 2) := by decide
theorem test_decode_slt : decode true (0b000000#6 ++ 0b11111#5 ++ 0b11111#5 ++ 0b11111#5 ++ 0b00000#5 ++ 0b101010#6) =
    some (.slt 31 31 31) := by decide
theorem test_decode_craft : decode true (0b000000#6 ++ 0b00001#5 ++ 0b00010#5 ++ 0b00011#5 ++ 0b00000#5 ++ 0b110000#6) =
    some (.craft 3 1 2) := by decide
theorem test_decode_brew : decode true (0b000000#6 ++ 0b00001#5 ++ 0b00010#5 ++ 0b00011#5 ++ 0b00000#5 ++ 0b110001#6) =
    some (.brew 3 1 2) := by decide
theorem test_decode_smelt : decode true (0b000000#6 ++ 0b00001#5 ++ 0b00000#5 ++ 0b00011#5 ++ 0b00000#5 ++ 0b110010#6) =
    some (.smelt 3 1) := by decide
theorem test_decode_j : decode true (0b000010#6 ++ 0b00000100000000000000000100#26) = some (.j 0x00100004#32) := by decide
theorem test_decode_beq : decode true (0b000100#6 ++ 0b00001#5 ++ 0b00010#5 ++ 0b0000000000000010#16) =
    some (.beq 1 2 2#32) := by decide
theorem test_decode_bne : decode true (0b000101#6 ++ 0b00001#5 ++ 0b00010#5 ++ 0b1111111111111101#16) =
    some (.bne 1 2 0xFFFFFFFD#32) := by decide
theorem test_decode_addi : decode true (0b001000#6 ++ 0b00001#5 ++ 0b00010#5 ++ 0b1111111111111111#16) =
    some (.addi 2 1 0xFFFFFFFF#32) := by decide
theorem test_decode_andi : decode true (0b001100#6 ++ 0b00001#5 ++ 0b00010#5 ++ 0b1111111100000000#16) =
    some (.andi 2 1 0x0000FF00#32) := by decide
theorem test_decode_ori : decode true (0b001101#6 ++ 0b00001#5 ++ 0b00010#5 ++ 0b1000000000000000#16) =
    some (.ori 2 1 0x00008000#32) := by decide
theorem test_decode_lw : decode true (0b100011#6 ++ 0b00001#5 ++ 0b00010#5 ++ 0b0000000000001000#16) =
    some (.lw 2 8#32 1) := by decide
theorem test_decode_sw : decode true (0b101011#6 ++ 0b00001#5 ++ 0b00010#5 ++ 0b1111111111111100#16) =
    some (.sw 2 0xFFFFFFFC#32 1) := by decide
theorem test_decode_mine : decode true (0b110000#6 ++ 0b00001#5 ++ 0b00010#5 ++ 0b0000000000000011#16) =
    some (.mine 2 3#32 1) := by decide
theorem test_decode_place : decode true (0b110001#6 ++ 0b00001#5 ++ 0b00010#5 ++ 0b0000000000000000#16) =
    some (.place 2 0#32 1) := by decide
theorem test_decode_ifmob : decode true (0b110010#6 ++ 0b00001#5 ++ 0b00010#5 ++ 0b1111111111111111#16) =
    some (.ifmob 2 0xFFFFFFFF#32 1) := by decide
theorem test_decode_invld : decode true (0b110011#6 ++ 0b00001#5 ++ 0b00010#5 ++ 0b0000000000000001#16) =
    some (.invld 2 1#32 1) := by decide
theorem test_decode_invst : decode true (0b110100#6 ++ 0b00001#5 ++ 0b00010#5 ++ 0b0000000000000001#16) =
    some (.invst 2 1#32 1) := by decide
theorem test_decode_hotbar : decode true (0b110101#6 ++ 0b00000#5 ++ 0b00000#5 ++ 0b1111111110011100#16) =
    some (.hotbar 0xFFFFFF9C#32) := by decide
theorem test_decode_chat : decode true (0b110110#6 ++ 0b00100#5 ++ 0b00000#5 ++ 0b0000000000000000#16) =
    some (.chat 4) := by decide
theorem test_decode_sprint : decode true (0b110111#6 ++ 0b00100#5 ++ 0b00000#5 ++ 0b1111111111111110#16) =
    some (.sprint 4 0xFFFFFFFE#32) := by decide

/-- 95_test_vectors.md section 2.1: the misses of the table. -/
theorem test_decode_misses :
    [0x00221860#32, 0x00221821#32, 0x00000000#32, 0x00211832#32, 0x00221833#32, 0x3822FF00#32, 0x8022FFFC#32,
      0x0C100004#32, 0xD420FF9C#32, 0xD401FF9C#32, 0xD8800001#32, 0xD8810000#32, 0xDC81FFFE#32, 0xE0000000#32,
      0xFFFFFFFF#32].map (decode true) = List.replicate 15 none := by decide

/-- 20_memory.md R76: without the Inventory its two words miss. -/
theorem test_decode_absent_inventory :
    decode false 0xCC220001#32 = none ∧ decode false 0xD0220001#32 = none ∧
    decode false 0xC822FFFF#32 = some (.ifmob 2 0xFFFFFFFF#32 1) := by decide

/-- 40_decoder.md R146: no two rows of either table overlap. -/
theorem test_table_conflict_free : tableConflict (templateTable true) = none ∧ tableConflict (templateTable false) = none := by
  decide

/-- 95_test_vectors.md section 2.1: the count of words that hit, from the number of variable bits of each row. -/
theorem test_hit_count :
    (templateTable true).map (fun t => (List.range 32).countP fun k => !t.mask.getLsbD k) =
      List.replicate 8 15 ++ [10] ++ List.replicate 13 26 ++ [16, 5, 21] ∧
    8 * 0x8000 + 0x400 + 13 * 0x4000000 + 0x10000 + 0x20 + 0x200000 = 874841120 :=
  ⟨by decide, by decide⟩

/-! ### One step per vector of 95_test_vectors.md section 2.2 (register-register) -/

theorem test_add_wraps : seen (start [(1, 0xFFFFFFFF#32), (2, 1#32)] 0x00221820#32) (·.reg 3) = some 0#32 := by decide
theorem test_add_same_register : seen (start [(1, 0x40000001#32)] 0x00210820#32) (·.reg 1) = some 0x80000002#32 := by decide
theorem test_sub_borrow_wraps : seen (start [(2, 1#32)] 0x00221822#32) (·.reg 3) = some 0xFFFFFFFF#32 := by decide
theorem test_sub_negates_minimum : seen (start [(2, 0x80000000#32)] 0x00021822#32) (·.reg 3) = some 0x80000000#32 := by decide
theorem test_and_bits : seen (start [(1, 0xFF00FF00#32), (2, 0x0FF00FF0#32)] 0x00221824#32) (·.reg 3) = some 0x0F000F00#32 := by decide
theorem test_or_bits : seen (start [(1, 0xFF00FF00#32), (2, 0x0FF00FF0#32)] 0x00221825#32) (·.reg 3) = some 0xFFF0FFF0#32 := by decide
theorem test_xor_bits : seen (start [(1, 0xFF00FF00#32), (2, 0x0FF00FF0#32)] 0x00221826#32) (·.reg 3) = some 0xF0F0F0F0#32 := by decide
theorem test_slt_is_signed : seen (start [(1, 0x80000000#32), (2, 0x7FFFFFFF#32)] 0x0022182A#32) (·.reg 3) = some 1#32 := by decide
theorem test_slt_max_not_below_min : seen (start [(1, 0x7FFFFFFF#32), (2, 0x80000000#32)] 0x0022182A#32) (·.reg 3) = some 0#32 := by decide
theorem test_craft_drops_upper_halves : seen (start [(1, 0x00018000#32), (2, 0x7FFF8001#32)] 0x00221830#32) (·.reg 3) = some 0x80008001#32 := by decide
theorem test_craft_round_trip : seen (start [(1, 0x12345678#32), (2, 0x9ABCDEF0#32)] 0x00221830#32) (·.reg 3) = some 0x5678DEF0#32 := by decide
theorem test_brew_mixes : seen (start [(1, 0x12345678#32), (2, 0x9ABCDEF0#32)] 0x00221831#32) (·.reg 3) = some 0xEE81D9B4#32 := by decide
theorem test_brew_shift_is_logical : seen (start [(1, 0xFFFFFFFF#32), (2, 0x80000000#32)] 0x00221831#32) (·.reg 3) = some 0x1FFFFFFF#32 := by decide
theorem test_smelt_clamps_high : seen (start [(1, 0x00000100#32)] 0x00201832#32) (·.reg 3) = some 0x000000FF#32 := by decide
theorem test_smelt_clamps_negative : seen (start [(1, 0x80000000#32)] 0x00201832#32) (·.reg 3) = some 0#32 := by decide
theorem test_add_to_register_0_dropped : seen (start [(1, 5#32), (2, 6#32)] 0x00220020#32) (fun u => (u.reg 0, u.pc)) = some (0#32, 0x00400004#32) := by decide

/-! ### Section 2.3 (immediate) -/

theorem test_addi_sign_extends : seen (start [] 0x2022FFFF#32) (·.reg 2) = some 0xFFFFFFFF#32 := by decide
theorem test_addi_overflow_wraps : seen (start [(1, 0x7FFFFFFF#32)] 0x20220001#32) (·.reg 2) = some 0x80000000#32 := by decide
theorem test_andi_clears_upper_half : seen (start [(1, 0x12345678#32)] 0x3022FF00#32) (·.reg 2) = some 0x00005600#32 := by decide
theorem test_andi_zero_extends : seen (start [(1, 0xFFFFFFFF#32)] 0x3022FFFF#32) (·.reg 2) = some 0x0000FFFF#32 := by decide
theorem test_ori_zero_extends : seen (start [(1, 0x00010001#32)] 0x34228000#32) (·.reg 2) = some 0x00018001#32 := by decide
theorem test_hotbar_minus_100 : seen (start [] 0xD400FF9C#32) (·.reg 26) = some 4#32 := by decide
theorem test_hotbar_replaces_register : seen (start [(26, 0xDEADBEEF#32)] 0xD4007FFF#32) (·.reg 26) = some 7#32 := by decide

/-! ### Section 2.4 (loads and stores) -/

theorem test_lw_reads : onOutcome ((start [(1, 0x10010000#32)] 0x8C220008#32).hostStore 0x10010008#32 0xDEADBEEF#32 |> fun r => match r with | .ok u => step u | .error _ => step State.reset) (fun u => some (u.reg 2)) (fun _ => none) (fun _ => none) = some 0xDEADBEEF#32 := by decide
theorem test_lw_misaligned_into_register_0 : faultOf (start [(1, 0x10010001#32)] 0x8C200000#32) = some (2#2, 0x10010001#32) := by decide
theorem test_sw_negative_offset : seen (start [(1, 0x10010008#32), (2, 0x2A#32)] 0xAC22FFFC#32) (·.gm) = some [(0x10010004, 0x2A#8)] := by decide
theorem test_sw_misaligned : faultOf (start [(1, 0x10010000#32)] 0xAC220002#32) = some (2#2, 0x10010002#32) := by decide
theorem test_place_negative_block : seen (start [(1, 7#32), (2, 0xFFFFFFFE#32)] 0xC4220000#32) (fun u => (u.cell .world 7, u.cell .world 8, u.readByte .world 0x2000001C)) = some (0xFFFFFFFE#32, 0#32, 0xFE#8) := by decide
theorem test_place_index_wraps_not : faultOf (start [(1, 0x40000000#32)] 0xC4220000#32) = some (2#2, 0x20000000#32) := by decide

/-- The state in which `World[7]` and `Inv[1]` hold a value. -/
def placed (regs : List (RegIdx × Word)) (w : Word) : State :=
  { start regs w with world := Memory.writeWord [] 0x2000001C 0xFFFFFFFE#32, inv := Memory.writeWord [] 0x30000004 0x40#32 }

theorem test_mine_reads_cell : seen (placed [(1, 8#32)] 0xC023FFFF#32) (·.reg 3) = some 0xFFFFFFFE#32 := by decide
theorem test_mine_index_minus_1 : faultOf (placed [(1, 3#32)] 0xC022FFFC#32) = some (2#2, 0x1FFFFFFC#32) := by decide
theorem test_ifmob_negative_block : seen (placed [(1, 8#32)] 0xC822FFFF#32) (·.reg 2) = some 1#32 := by decide
theorem test_ifmob_unwritten_cell : seen (placed [(1, 8#32), (2, 9#32)] 0xC8220000#32) (·.reg 2) = some 0#32 := by decide
theorem test_invld_reads_cell : seen (placed [] 0xCC220001#32) (·.reg 2) = some 0x40#32 := by decide
theorem test_invld_index_past_end : faultOf (placed [(1, 0x100#32)] 0xCC220000#32) = some (2#2, 0x30000400#32) := by decide
theorem test_invst_writes_inventory_only : seen (start [(2, 0x40#32)] 0xD0220001#32) (fun u => (u.cell .inventory 1, u.cell .world 1)) = some (0x40#32, 0#32) := by decide

/-! ### Section 2.5 (control transfer) -/

theorem test_beq_taken : seen (startAt 0x00000064#32 [(1, 9#32), (2, 9#32)] 0x10220002#32) (·.pc) = some 0x00000070#32 := by decide
theorem test_beq_not_taken : seen (startAt 0x00000064#32 [(1, 9#32), (2, 8#32)] 0x10220002#32) (·.pc) = some 0x00000068#32 := by decide
theorem test_bne_taken_backward : seen (startAt 0x00400010#32 [(1, 1#32)] 0x1422FFFD#32) (·.pc) = some 0x00400008#32 := by decide
theorem test_bne_same_register : seen (startAt 0x00400010#32 [(1, 1#32)] 0x14210005#32) (·.pc) = some 0x00400014#32 := by decide
theorem test_j_segment_of_pc_next : seen (startAt 0x0FFFFFFC#32 [] 0x08100004#32) (·.pc) = some 0x10400010#32 := by decide
theorem test_j_keeps_top_bits : seen (startAt 0xF0000000#32 [] 0x08000000#32) (·.pc) = some 0xF0000000#32 := by decide
theorem test_sprint_falls_through : seen (startAt 0x00400008#32 [(4, 1#32)] 0xDC80FFFE#32) (fun u => (u.pc, u.reg 4)) = some (0x0040000C#32, 0#32) := by decide
theorem test_sprint_register_0 : seen (startAt 0x00400008#32 [] 0xDC00FFFE#32) (fun u => (u.pc, u.reg 0)) = some (0x00400004#32, 0#32) := by decide
theorem test_pc_wraps : seen (startAt 0xFFFFFFFC#32 [] 0x00221820#32) (·.pc) = some 0#32 := by decide

/-! ### Section 2.6 (chat) and 2.7 (faults) -/

theorem test_chat_minus_100 : seen (start [(4, 0xFFFFFF9C#32)] 0xD8800000#32) (·.out) = some [0x2D#8, 0x31#8, 0x30#8, 0x30#8, 0x0A#8] := by decide
theorem test_chat_minimum : decNumeral 0x80000000#32 = [0x2D#8, 0x32#8, 0x31#8, 0x34#8, 0x37#8, 0x34#8, 0x38#8, 0x33#8, 0x36#8, 0x34#8, 0x38#8] := by decide
theorem test_decode_miss_reports : clockEdge ⟨false, true, Cfg.reference⟩ (start [] 0x00000021#32) = (start [] 0x00000021#32, some ⟨1#2, 0#32, 0x21#32, 0x00400000#32⟩) := by decide
theorem test_reset_run_ends : refusalOf State.reset = some (.programEnded 0x00400000#32) := by decide
/-- What is seen of a run that is FINAL. -/
def sprintEnd : RunResult → Option (Word × Word)
  | .final s => some (s.reg 4, s.pc)
  | .running _ => none
  | .faulted _ _ => none
  | .outside _ _ => none

theorem test_run_final : sprintEnd (runFor 2 (start [(4, 1#32)] 0xDC80FFFF#32)) = some (0#32, 0x00400004#32) := by decide
theorem test_run_end_pc : sprintEnd (runToEndPc 0x00400004#32 1 (start [(4, 1#32)] 0xDC80FFFF#32)) =
    some (0#32, 0x00400004#32) := by decide
theorem test_table_word : decodeTableWord 32 0x00221820 = some (.add 3 1 2) := by decide
theorem test_config_refused : refusalOf (State.resetTo { Cfg.reference with hotbarReg := 0 }) = some .configNotWellFormed := by decide
theorem test_misaligned_pc_refused : refusalOf (State.reset.setPc 2#32) = some (.pcMisaligned 2#32) := by decide


/-! ### Witnesses: for each obligation with hypotheses, a state and operands that meet them, clause by clause -/

/-- The reference machine with `x[1] = x`; the word at the PC is `add r0, r0, r0`. -/
def at1 (x : Word) : State := start [(1, x)] 0x00000020#32

theorem fault_of_faultOf {s : State} {p : BitVec 2 × Word} (h : faultOf s = some p) : ∃ f, step s = .fault f := by
  unfold faultOf at h
  generalize step s = o at h
  cases o <;> simp_all [onOutcome]

theorem next_of_seen {α : Type} {s : State} {look : State → α} {a : α} (h : seen s look = some a) :
    ∃ t, step s = .next t ∧ look t = a := by
  unfold seen at h
  generalize step s = o at h
  cases o <;> simp_all [onOutcome]

theorem witness_SmeltClampsToByte : (1#5 : RegIdx) ≠ 0#5 ∧ (31#5 : RegIdx) ≠ 0#5 ∧ decode true 0x00211832#32 = none := by
  decide

theorem witness_HotbarWritesLowThreeBits : (at1 0#32).cfg.ok = true ∧
    ¬ ((1#5 : RegIdx) = 0#5 ∧ (0#5 : RegIdx) = 0#5) ∧ ¬ ((0#5 : RegIdx) = 0#5 ∧ (1#5 : RegIdx) = 0#5) := by decide

theorem witness_LwLoadsOrFaults :
    ([0x10010000#32, 0x1001FFFC#32].all fun a => decide (a = wrap32 ((uint ((at1 a).reg 1) : Int) + (0#16).toInt) ∧ a.toNat % 4 = 0 ∧
      (at1 a).cfg.gmValid a = true)) = true ∧
    ([0x10010001#32, 0x10010003#32].all fun a => decide (a = wrap32 ((uint ((at1 a).reg 1) : Int) + (0#16).toInt) ∧ a.toNat % 4 ≠ 0)) = true ∧
    ([0x1000FFFC#32, 0x10020000#32].all fun a => decide (a = wrap32 ((uint ((at1 a).reg 1) : Int) + (0#16).toInt) ∧
      (at1 a).cfg.gmValid a = false)) = true ∧
    ([0x20000000#32, 0x2003FFFF#32].all fun a => decide ((at1 a).cfg.ok = true ∧ (at1 a).cfg.world.contains a.toNat = true)) = true ∧
    ([0x30000000#32, 0x300003FF#32].all fun a => decide ((at1 a).cfg.ok = true ∧ (at1 a).cfg.invByte a.toNat = true)) = true := by decide

theorem witness_SwStoresOrFaults :
    ([0x10010000#32, 0x1001FFFC#32].all fun a => decide (Memory.wf (at1 a).gm ∧
      a = wrap32 ((uint ((at1 a).reg 1) : Int) + (0#16).toInt) ∧ a.toNat % 4 = 0 ∧ (at1 a).cfg.gmValid a = true)) = true ∧
    ([0x10010001#32, 0x1001FFFF#32].all fun a => decide (Memory.wf (at1 a).gm ∧ a.toNat % 4 ≠ 0)) = true ∧
    ([0x1000FFFC#32, 0x10020000#32].all fun a => decide (Memory.wf (at1 a).gm ∧ (at1 a).cfg.gmValid a = false)) = true := by decide

/-- In range at both ends and out of range on both sides: the World. -/
theorem witness_MineReadsWorldCell :
    ([0#32, 0xFFFF#32].all fun x => decide (0 ≤ sint ((at1 x).reg 1) + (0#16).toInt ∧
      sint ((at1 x).reg 1) + (0#16).toInt < (at1 x).cfg.world.cells)) = true ∧
    ([0xFFFFFFFF#32, 0x10000#32].all fun x => decide (¬ (0 ≤ sint ((at1 x).reg 1) + (0#16).toInt ∧
      sint ((at1 x).reg 1) + (0#16).toInt < (at1 x).cfg.world.cells))) = true := by decide

theorem witness_IfmobTestsWorldCell :
    ([1#32, 0x10000#32].all fun x => decide (0 ≤ sint ((at1 x).reg 1) + (0xFFFF#16).toInt ∧
      sint ((at1 x).reg 1) + (0xFFFF#16).toInt < (at1 x).cfg.world.cells)) = true ∧
    ([0#32, 0x10001#32].all fun x => decide (¬ (0 ≤ sint ((at1 x).reg 1) + (0xFFFF#16).toInt ∧
      sint ((at1 x).reg 1) + (0xFFFF#16).toInt < (at1 x).cfg.world.cells))) = true := by decide

theorem witness_PlaceWritesWorldCell :
    ([0#32, 0xFFFF#32].all fun x => decide (Memory.wf (at1 x).world ∧ 0 ≤ sint ((at1 x).reg 1) + (0#16).toInt ∧
      sint ((at1 x).reg 1) + (0#16).toInt < (at1 x).cfg.world.cells)) = true ∧
    ([0xFFFFFFFF#32, 0x10000#32].all fun x => decide (Memory.wf (at1 x).world ∧ ¬ (0 ≤ sint ((at1 x).reg 1) + (0#16).toInt ∧
      sint ((at1 x).reg 1) + (0#16).toInt < (at1 x).cfg.world.cells))) = true := by decide

/-- In range at both ends and out of range on both sides: the Inventory. -/
theorem witness_InvldReadsInventoryCell :
    ([0#32, 0xFF#32].all fun x => decide ((at1 x).cfg.invPresent = true ∧ 0 ≤ sint ((at1 x).reg 1) + (0#16).toInt ∧
      sint ((at1 x).reg 1) + (0#16).toInt < (at1 x).cfg.inventory.cells)) = true ∧
    ([0xFFFFFFFF#32, 0x100#32].all fun x => decide ((at1 x).cfg.invPresent = true ∧ ¬ (0 ≤ sint ((at1 x).reg 1) + (0#16).toInt ∧
      sint ((at1 x).reg 1) + (0#16).toInt < (at1 x).cfg.inventory.cells))) = true := by decide

theorem witness_InvstWritesInventoryCell :
    ([0#32, 0xFF#32].all fun x => decide (Memory.wf (at1 x).inv ∧ (at1 x).cfg.invPresent = true ∧
      0 ≤ sint ((at1 x).reg 1) + (0#16).toInt ∧ sint ((at1 x).reg 1) + (0#16).toInt < (at1 x).cfg.inventory.cells)) = true ∧
    ([0xFFFFFFFF#32, 0x100#32].all fun x => decide (Memory.wf (at1 x).inv ∧ (at1 x).cfg.invPresent = true ∧
      ¬ (0 ≤ sint ((at1 x).reg 1) + (0#16).toInt ∧
        sint ((at1 x).reg 1) + (0#16).toInt < (at1 x).cfg.inventory.cells))) = true := by decide

theorem witness_SprintDecrementsThenBranches :
    0#32 = wrap32 ((uint ((at1 1#32).reg 1) : Int) - 1) ∧ 1#32 = wrap32 ((uint ((at1 2#32).reg 1) : Int) - 1) ∧
    0xFFFFFFFF#32 = wrap32 ((uint ((at1 0#32).reg 1) : Int) - 1) ∧ (1#5 : RegIdx) ≠ 0#5 := by decide

theorem witness_ChatAppendsDecimalText :
    ¬ ((1#5 : RegIdx) = 0#5 ∧ 0#16 = 0#16) ∧ ¬ ((0#5 : RegIdx) = 0#5 ∧ 1#16 = 0#16) := by decide

theorem witness_DecodeAndEncodeAreInverse :
    decode true 0xAC22FFFC#32 = some (.sw 2 0xFFFFFFFC#32 1) ∧ decode false 0x03FFF82A#32 = some (.slt 31 31 31) ∧
    Instr.wellFormed (.lw 31 0xFFFF8000#32 31) = true := by decide

theorem witness_TableOrderNeverDecides :
    template .add ∈ templateTable false ∧ (template .add).matches 0x00221820#32 = true ∧
    (templateTable true).reverse.Perm (templateTable true) := ⟨by decide, by decide, List.reverse_perm _⟩

theorem witness_ConflictTestIsExact :
    (template .add).pattern &&& (template .add).mask = (template .add).pattern ∧
    (template .j).pattern &&& (template .j).mask = (template .j).pattern ∧ Cfg.reference.ok = true ∧
    ¬ [template .add, template .add].Pairwise (fun a b => (a.pattern ^^^ b.pattern) &&& a.mask &&& b.mask ≠ 0#32) ∧
    [template .add, template .sub].Pairwise (fun a b => (a.pattern ^^^ b.pattern) &&& a.mask &&& b.mask ≠ 0#32) := by decide

theorem witness_FixedZeroFieldsTakePartInMatch :
    decode true (0b000000#6 ++ 1#5 ++ 2#5 ++ 3#5 ++ 1#5 ++ 0b100000#6) = none ∧
    decode true (0b000000#6 ++ 1#5 ++ 2#5 ++ 3#5 ++ 0#5 ++ 0b110010#6) = none ∧ (1#5 : RegIdx) ≠ 0#5 ∧ 1#16 ≠ 0#16 := by
  decide

theorem witness_UnusedOpcodesAndFunctsMiss :
    ([0x04000000#32, 0xE0000000#32, 0xFFFFFFFF#32].all fun w => decide ((fieldOp w).toNat ∉ [0x00, 0x02, 0x04, 0x05, 0x08, 0x0C, 0x0D, 0x23, 0x2B, 0x30, 0x31, 0x32, 0x33, 0x34, 0x35, 0x36,
        0x37])) = true ∧
    ([0x00000000#32, 0x00221821#32, 0x0000003F#32].all fun w => decide (fieldOp w = 0#6 ∧
      (fieldFn w).toNat ∉ [0x20, 0x22, 0x24, 0x25, 0x26, 0x2A, 0x30, 0x31, 0x32])) = true := by decide

/-- `0x00000021` matches no template and is fetched. -/
theorem witness_EveryWordIsTemplateOrMiss :
    (template .add).matches 0x00221820#32 = true ∧ (∀ id, (template id).matches 0x00000021#32 = false) ∧
    (start [] 0x21#32).cfg.ok = true ∧ (start [] 0x21#32).pcAligned = true ∧ (start [] 0x21#32).fetch = some 0x21#32 :=
  ⟨by decide, fun id => by cases id <;> decide, by decide, by decide, by decide⟩

theorem witness_StepRunsDecodedInstruction :
    (start [] 0xC4220000#32).cfg.ok = true ∧ (start [] 0xC4220000#32).pcAligned = true ∧
    (start [] 0xC4220000#32).fetch = some 0xC4220000#32 ∧
    decode (start [] 0xC4220000#32).cfg.invPresent 0xC4220000#32 = some (.place 2 0#32 1) := by decide

theorem witness_DecodeMissExactlyOnUnmatchedWord :
    (start [] 0x21#32).cfg.ok = true ∧ (start [] 0x21#32).pcAligned = true ∧ (start [] 0x21#32).fetch = some 0x21#32 ∧
    decode (start [] 0x21#32).cfg.invPresent 0x21#32 = none := by decide

/-- A misaligned load and a cell index past the end, each with its cause. -/
theorem witness_AddressFaultExactlyOnListedCauses :
    (at1 0#32).cfg.ok = true ∧ (at1 0#32).pcAligned = true ∧
    (start [(1, 0x10010001#32)] 0x8C220008#32).fetch = some 0x8C220008#32 ∧
    decode true 0x8C220008#32 = some (.lw 2 8#32 1) ∧
    AddressFaultCause (start [(1, 0x10010001#32)] 0x8C220008#32) 0x10010009#32 (.lw 2 8#32 1) ∧
    decode true 0xCC220000#32 = some (.invld 2 0#32 1) ∧
    AddressFaultCause (start [(1, 0x100#32)] 0xCC220000#32) 0x30000400#32 (.invld 2 0#32 1) :=
  ⟨by decide, by decide, by decide, by decide, ⟨by decide, by decide⟩, by decide, ⟨by decide, by decide⟩⟩

theorem witness_FaultHoldsStateAndRepeats :
    (∃ f, step (start [] 0x21#32) = .fault f) ∧ ∃ f, step (start [(1, 0x10010001#32)] 0x8C220008#32) = .fault f :=
  ⟨fault_of_faultOf (p := (1#2, 0#32)) (by decide), fault_of_faultOf (p := (2#2, 0x10010009#32)) (by decide)⟩

theorem witness_FaultInterfaceCarriesReport :
    (start [] 0x21#32).fetch = some 0x21#32 ∧ decode (start [] 0x21#32).cfg.invPresent 0x21#32 = none ∧
    (start [(1, 0x10010001#32)] 0x8C220008#32).cfg.ok = true ∧
    (start [(1, 0x10010001#32)] 0x8C220008#32).pcAligned = true ∧
    (start [(1, 0x10010001#32)] 0x8C220008#32).fetch = some 0x8C220008#32 ∧
    AddressFaultCause (start [(1, 0x10010001#32)] 0x8C220008#32) 0x10010009#32 (.lw 2 8#32 1) ∧
    ∃ t, step (at1 0#32) = .next t ∧ t.pc = 0x00400004#32 :=
  ⟨by decide, by decide, by decide, by decide, by decide, ⟨by decide, by decide⟩, next_of_seen (by decide)⟩

theorem witness_ClockEdgeResetsStepsOrHolds :
    (∃ t, step (at1 0#32) = .next t ∧ t.pc = 0x00400004#32) ∧ ∃ f, step (start [] 0x21#32) = .fault f :=
  ⟨next_of_seen (by decide), fault_of_faultOf (p := (1#2, 0#32)) (by decide)⟩

/-- A running state meets the invariant, and its step stores to the World. -/
theorem witness_StepKeepsInvariant :
    (start [(1, 7#32), (2, 9#32)] 0xC4220000#32).Inv ∧
    ∃ t, step (start [(1, 7#32), (2, 9#32)] 0xC4220000#32) = .next t ∧ t.cell .world 7 = 9#32 :=
  ⟨⟨by decide, by decide, by decide, by decide, by decide, by decide, by decide, by decide⟩, next_of_seen (by decide)⟩

theorem witness_ResetMeetsInvariant :
    (at1 5#32).Inv ∧ Cfg.reference.ok = true ∧ Cfg.reference.general = (at1 5#32).cfg.general :=
  ⟨⟨by decide, by decide, by decide, by decide, by decide, by decide, by decide, by decide⟩, by decide, by decide⟩

/-- The start of a run, and the state one step on. -/
theorem witness_ReachableStatesMeetInvariant :
    Reachable (start [] 0xD4000005#32) ∧ ∃ t, Reachable t ∧ t.reg 26 = 5#32 := by
  have h : Reachable (start [] 0xD4000005#32) := Reachable.start (start [] 0xD4000005#32).cfg (by decide)
  obtain ⟨t, ht, hr⟩ := next_of_seen (s := start [] 0xD4000005#32) (look := (·.reg 26)) (a := 5#32) (by decide)
  exact ⟨h, t, Reachable.step _ _ h ht, hr⟩

theorem witness_EveryTargetIsAligned :
    (at1 0#32).pc.toNat % 4 = 0 ∧ ∃ t, exec (.beq 0 0 0xFFFFFFFF#32) (at1 0#32) = .next t := ⟨by decide, _, rfl⟩

theorem witness_OnlyNamedRegisterIsWritten :
    (∃ t, exec (.add 3 1 2) (at1 5#32) = .next t) ∧ writesReg (at1 5#32).cfg (.add 3 1 2) ≠ some 1#5 := ⟨⟨_, rfl⟩, by decide⟩

/-- Two states that differ in `x[9]` only. -/
theorem witness_OnlyNamedRegistersAreRead :
    (start [(1, 5#32), (9, 1#32)] 0x20#32).pc = (start [(1, 5#32)] 0x20#32).pc ∧
    (start [(1, 5#32), (9, 1#32)] 0x20#32).gm = (start [(1, 5#32)] 0x20#32).gm ∧
    (start [(1, 5#32), (9, 1#32)] 0x20#32).world = (start [(1, 5#32)] 0x20#32).world ∧
    (start [(1, 5#32), (9, 1#32)] 0x20#32).inv = (start [(1, 5#32)] 0x20#32).inv ∧
    (start [(1, 5#32), (9, 1#32)] 0x20#32).out = (start [(1, 5#32)] 0x20#32).out ∧
    (start [(1, 5#32), (9, 1#32)] 0x20#32).cfg = (start [(1, 5#32)] 0x20#32).cfg ∧
    (∀ r ∈ readsRegs (.place 2 0#32 1),
      (start [(1, 5#32), (9, 1#32)] 0x20#32).reg r = (start [(1, 5#32)] 0x20#32).reg r) ∧
    (start [(1, 5#32), (9, 1#32)] 0x20#32).reg 9 ≠ (start [(1, 5#32)] 0x20#32).reg 9 := by decide

theorem witness_OnlyNamedRegionIsWritten :
    (∃ t, exec (.place 2 0#32 1) (at1 7#32) = .next t) ∧ accessOf (.place 2 0#32 1) ≠ some (.general, .write) ∧
    (Instr.place 2 0#32 1).id ≠ .chat := ⟨⟨_, rfl⟩, by decide, by decide⟩

theorem witness_SequentialUnlessRedirected :
    (∃ t, exec (.beq 1 2 5#32) (at1 7#32) = .next t) ∧ ¬ Redirects (at1 7#32) (.beq 1 2 5#32) ∧
    (∃ t, exec (.sprint 1 5#32) (at1 1#32) = .next t) ∧ ¬ Redirects (at1 1#32) (.sprint 1 5#32) ∧
    ¬ Redirects (at1 1#32) (.chat 1) :=
  ⟨⟨_, rfl⟩, by simp only [Redirects]; decide, ⟨_, rfl⟩, by simp only [Redirects]; decide, id⟩

theorem witness_LoadsSeeTheLastStore :
    (3#5 : RegIdx) ≠ 0#5 ∧ Memory.wf (at1 0#32).gm ∧ Memory.wf (at1 0#32).world ∧ Memory.wf (at1 0#32).inv ∧
    (∃ t, exec (.sw 2 0#32 1) (at1 0x1001FFFC#32) = .next t ∧ t.effAddr 1 0#32 = (at1 0x1001FFFC#32).effAddr 1 0#32) ∧
    (∃ t, exec (.place 2 0#32 1) (at1 0xFFFF#32) = .next t ∧ t.cellIndex 1 0#32 = (at1 0xFFFF#32).cellIndex 1 0#32) ∧
    ∃ t, exec (.invst 2 0#32 1) (at1 0xFF#32) = .next t ∧ t.cellIndex 1 0#32 = (at1 0xFF#32).cellIndex 1 0#32 :=
  ⟨by decide, by decide, by decide, by decide, ⟨_, rfl, by decide⟩, ⟨_, rfl, by decide⟩, ⟨_, rfl, by decide⟩⟩

theorem witness_GeneralAccessCannotReachRegions :
    ([0x20000000#32, 0x2003FFFF#32].all fun a => decide ((at1 a).cfg.ok = true ∧
      (at1 a).cfg.world.contains ((at1 a).effAddr 1 0#32).toNat = true)) = true ∧
    ([0x30000000#32, 0x300003FF#32].all fun a => decide ((at1 a).cfg.ok = true ∧
      (at1 a).cfg.invByte ((at1 a).effAddr 1 0#32).toNat = true)) = true := by decide

/-- The sum overflows upwards and downwards, and is in range at both ends. -/
theorem witness_WrappedIndexGivesSameVerdict :
    Cfg.reference.ok = true ∧ Cfg.reference.invPresent = true ∧
    ([0#32, 0xFFFF#32].all fun x => decide (0 ≤ sint x + sint (sext16 0#16) ∧
      sint x + sint (sext16 0#16) < (Cfg.reference.window .world).cells)) = true ∧
    sint 0x7FFFFFFF#32 + sint (sext16 1#16) = 2147483648 ∧ sint 0x80000000#32 + sint (sext16 0xFFFF#16) = -2147483649 := by
  decide

theorem witness_WellFormedConfigurationConditions :
    (at1 0#32).cfg.ok = true ∧ (at1 0#32).cfg.invPresent = true ∧
    Program.lookup (at1 0#32).cfg.prog 0x00400000 = some 0x20#32 ∧
    (at1 0#32).cfg.world.contains (0x20000000#32).toNat = true ∧ (at1 0#32).cfg.invByte (0x300003FF#32).toNat = true ∧
    (State.resetTo { Cfg.reference with hotbarReg := 0 }).cfg.ok = false := by decide

theorem witness_PortsAgreeWithStep :
    (start [(1, 0x10010000#32)] 0x8C220008#32).presented = some (.lw 2 8#32 1) ∧
    (start [(1, 0x10010000#32)] 0x8C220008#32).gmPort = some (.read 0x10010008#32) ∧
    (start [(1, 0x10010000#32)] 0x8C220008#32).gmOk (.read 0x10010008#32) = true ∧
    (start [(1, 0x10020000#32)] 0xAC220000#32).gmPort = some (.write 0x10020000#32 0#32) ∧
    (start [(1, 0x10020000#32)] 0xAC220000#32).gmOk (.write 0x10020000#32 0#32) = false ∧
    (start [(1, 0x10010001#32)] 0x8C220008#32).gmPort = none ∧
    (start [(4, 42#32)] 0xD8800000#32).presented = some (.chat 4) ∧
    (start [(4, 42#32)] 0xD8800000#32).emitPort = some 42#32 := by decide

theorem witness_RunsEndAsFixed :
    State.reset.cfg.ok = true ∧ State.reset.pcAligned = true ∧ State.reset.fetch = none ∧
    (∃ f, step (start [] 0x21#32) = .fault f) ∧ ∃ t, step (at1 0#32) = .next t ∧ t.pc = 0x00400004#32 :=
  ⟨by decide, by decide, by decide, fault_of_faultOf (p := (1#2, 0#32)) (by decide), next_of_seen (by decide)⟩

theorem witness_HostStoreKeepsInvariant :
    (at1 0x1001FFFC#32).Inv ∧ ∃ t, (at1 0x1001FFFC#32).hostStore 0x1001FFFC#32 5#32 = .ok t ∧
      t.effAddr 1 0#32 = 0x1001FFFC#32 :=
  ⟨⟨by decide, by decide, by decide, by decide, by decide, by decide, by decide, by decide⟩, _, rfl, by decide⟩

theorem witness_PlacedWordRunsNext :
    State.reset.cfg.ok = true ∧ State.reset.pcAligned = true ∧
    decode State.reset.cfg.invPresent 0xD8800000#32 = some (.chat 4) := by decide

end Sys2Proof.Tests
end

section
/-! What an accepted configuration keeps apart (00_scope.md R9), as facts about addresses; what becomes of any other. -/

namespace Sys2Proof

/-- A window inside the address space has at most `2^30` cells. -/
theorem Window.cells_le_of_fits {w : Window} (h : w.fits = true) : w.cells ≤ 2 ^ 30 := by
  obtain ⟨-, -, hlimit⟩ := Window.fits_iff.mp h
  omega

/-- Disjoint windows share no address. -/
theorem Window.not_contains_of_disjoint {v w : Window} (h : v.disjoint w = true) {a : Nat}
    (hv : v.contains a = true) : w.contains a ≠ true := by
  rw [Window.contains_iff] at hv
  rw [Ne, Window.contains_iff]
  have hsplit := Window.disjoint_iff.mp h
  omega

/-- An address is an Inventory byte when the Inventory is present and its window has the address. -/
theorem Cfg.invByte_iff {c : Cfg} {a : Nat} :
    c.invByte a = true ↔ c.invPresent = true ∧ c.inventory.contains a = true := by
  simp [Cfg.invByte]

/-- General memory has no address of a region's window (00_scope.md R9 (4)). -/
theorem Cfg.gmValid_eq_false_of_region {c : Cfg} (h : c.ok = true) {a : Word}
    (ha : c.world.contains a.toNat = true ∨ c.invByte a.toNat = true) : c.gmValid a = false := by
  obtain ⟨-, -, -, hgeneral, -⟩ := Cfg.ok_iff.mp h
  refine List.any_eq_false.mpr fun g hg hga => ?_
  obtain ⟨-, hworld, hinv⟩ := hgeneral g hg
  rcases ha with ha | ha
  · exact Window.not_contains_of_disjoint hworld hga ha
  · obtain ⟨hpresent, ha⟩ := Cfg.invByte_iff.mp ha
    exact Window.not_contains_of_disjoint (hinv hpresent) hga ha

/-- A well-formed image has words at word addresses only (00_scope.md R9 (7)). -/
theorem Program.aligned_of_lookup {p : Program} (hp : p.wf) {a : Nat} {w : Word} (h : p.lookup a = some w) :
    a % 4 = 0 := by
  have haligned := (hp.2 _ (Program.mem_of_lookup h)).1
  simpa [wordAligned] using haligned

end Sys2Proof

namespace Sys2Proof.Machine

/-- `step` refuses a configuration that is not well-formed. -/
theorem step_of_not_ok {s : State} (h : s.cfg.ok = false) : step s = .refused .configNotWellFormed := by
  simp [step, h]

/-- `boot` reports a configuration that is not well-formed, whatever the template table. -/
theorem boot_of_not_ok {c : Cfg} (h : c.ok = false) (table : List Template) :
    boot c table = .error .configNotWellFormed := by
  simp [boot, h]

/-- Settles O54: each part of `CfgOK` from its condition in `Cfg.ok_iff`; the bound on the cells from the window's fit in
the address space. -/
theorem wellFormedConfigurationConditions : Obligations.WellFormedConfigurationConditions := by
  unfold Obligations.WellFormedConfigurationConditions
  refine ⟨fun c h => ?_, fun s h => ⟨step_of_not_ok h, boot_of_not_ok h⟩⟩
  obtain ⟨hworld, hinvBase, hinv, -, -, -, hpc, hhotbar, hprog⟩ := Cfg.ok_iff.mp h
  obtain ⟨hbase, hcells, hlimit⟩ := Window.fits_iff.mp hworld
  refine ⟨hbase, hinvBase, hcells, Window.cells_le_of_fits hworld, hlimit, fun hpresent => ?_,
    fun _ => Cfg.gmValid_eq_false_of_region h, hpc, hhotbar, fun _ _ => Program.aligned_of_lookup hprog⟩
  obtain ⟨hfits, hdisjoint⟩ := hinv hpresent
  obtain ⟨-, hinvCells, hinvLimit⟩ := Window.fits_iff.mp hfits
  exact ⟨hinvCells, Window.cells_le_of_fits hfits, hinvLimit,
    fun _ ⟨hw, hi⟩ => Window.not_contains_of_disjoint hdisjoint hw hi⟩

end Sys2Proof.Machine
end

section
/-! What every step keeps: word-aligned control transfers (10_state.md R28), and regions that stay canonical and inside
their own windows (20_memory.md R60, R61). -/

namespace Sys2Proof

/-! ### Multiples of 4 -/

/-- `wordAligned` as an equation on the address. -/
theorem wordAligned_iff {a : Nat} : wordAligned a = true ↔ a % 4 = 0 := by
  simp [wordAligned]

/-- A pattern is a multiple of 4 when its two lowest bits are 0. -/
theorem mod_four_eq_zero_of_low_bits {x : Word} (h0 : x.getLsbD 0 = false) (h1 : x.getLsbD 1 = false) :
    x.toNat % 4 = 0 := by
  rw [← BitVec.testBit_toNat] at h0 h1
  simp only [Nat.testBit_zero, Nat.testBit_succ, decide_eq_false_iff_not] at h0 h1
  omega

/-! ### The addresses a region has -/

/-- The byte addresses that a region of the configuration has (20_memory.md R60, R61). -/
def Cfg.regionByte (c : Cfg) : Region → Nat → Bool
  | .general => c.gmByte
  | .world => c.world.contains
  | .inventory => c.invByte

/-- The window of a cell region has the four bytes of each of its cells. -/
theorem Window.contains_cell {w : Window} {idx k : Nat} (hidx : idx < w.cells) (hk : k < 4) :
    w.contains (w.base.toNat + 4 * idx + k) = true :=
  Window.contains_iff.mpr (by omega)

end Sys2Proof

namespace Sys2Proof.Machine

/-! ### Control transfers (44_control_flow.md R221, R224 to R227) -/

theorem State.pcNext_aligned {s : State} (h : s.pc.toNat % 4 = 0) : s.pcNext.toNat % 4 = 0 := by
  simp only [State.pcNext, BitVec.toNat_add, BitVec.toNat_ofNat]
  omega

theorem State.branchTarget_aligned {s : State} (h : s.pc.toNat % 4 = 0) (disp : Word) :
    (s.branchTarget disp).toNat % 4 = 0 := by
  have hnext := State.pcNext_aligned h
  simp only [State.branchTarget, BitVec.toNat_add, BitVec.toNat_mul, BitVec.toNat_ofNat]
  omega

/-- The two low bits of a jump target are 0, wherever the jump stands. -/
theorem State.jumpTarget_aligned (s : State) (tgt : Word) : (s.jumpTarget tgt).toNat % 4 = 0 :=
  mod_four_eq_zero_of_low_bits (by simp [State.jumpTarget]) (by simp [State.jumpTarget])

/-- The PC that an instruction's writes commit is aligned, redirected or not. -/
theorem State.commit_pc_aligned {i : Instr} {s : State} {d : Delta} (h : s.pc.toNat % 4 = 0) (hd : d.Allowed i s) :
    (s.commit d).pc.toNat % 4 = 0 := by
  rw [State.commit_pc]
  rcases hr : d.redirect with _ | target
  · exact State.pcNext_aligned h
  · rcases hd.target target hr with ⟨disp, rfl⟩ | ⟨tgt, rfl⟩
    · exact State.branchTarget_aligned h disp
    · exact State.jumpTarget_aligned s tgt

/-- Settles O46: the PC after an instruction is the committed one. -/
theorem everyTargetIsAligned : Obligations.EveryTargetIsAligned := by
  unfold Obligations.EveryTargetIsAligned
  intro i s t hpc hexec
  obtain ⟨d, rfl, hd⟩ := exec_next hexec
  exact State.commit_pc_aligned hpc hd

/-! ### The regions -/

/-- The storage of a region is canonical and lists bytes of the region only. -/
def State.RegionOk (s : State) (r : Region) : Prop :=
  Memory.wf (s.mem r) ∧ Memory.within (s.mem r) (s.cfg.regionByte r) = true

/-- The invariant, with its three memories taken together. -/
theorem State.inv_iff {s : State} : s.Inv ↔ s.cfg.ok = true ∧ s.pc.toNat % 4 = 0 ∧ ∀ r, s.RegionOk r := by
  constructor
  · rintro ⟨hok, hpc, hgm, hworld, hinv, hgm', hworld', hinv'⟩
    refine ⟨hok, wordAligned_iff.mp hpc, fun r => ?_⟩
    cases r
    case general => exact ⟨hgm, hgm'⟩
    case world => exact ⟨hworld, hworld'⟩
    case inventory => exact ⟨hinv, hinv'⟩
  · rintro ⟨hok, hpc, hmem⟩
    obtain ⟨hgm, hgm'⟩ := hmem .general
    obtain ⟨hworld, hworld'⟩ := hmem .world
    obtain ⟨hinv, hinv'⟩ := hmem .inventory
    exact ⟨hok, wordAligned_iff.mpr hpc, hgm, hworld, hinv, hgm', hworld', hinv'⟩

/-- An allowed cell write stores to bytes that its region has. -/
theorem Delta.Allowed.regionByte {i : Instr} {s : State} {d : Delta} (hd : d.Allowed i s) (hok : s.cfg.ok = true)
    {w : CellWrite} (hw : d.cell = some w) {k : Nat} (hk : k < 4) :
    s.cfg.regionByte w.region (w.addr + k) = true := by
  rcases hd.cell w hw with ⟨ea, haligned, hvalid, hregion, haddr⟩ | ⟨r, idx, hidx, hpresent, hregion, haddr⟩ <;>
    rw [hregion, haddr]
  · exact Cfg.gmByte_of_gmValid hok haligned hvalid hk
  · cases r
    case world => exact Window.contains_cell hidx hk
    case inventory => exact Cfg.invByte_iff.mpr ⟨hpresent rfl, Window.contains_cell hidx hk⟩

/-- Committing allowed writes keeps every region canonical and inside its window. -/
theorem State.RegionOk.commit {i : Instr} {s : State} {d : Delta} (hd : d.Allowed i s) (hok : s.cfg.ok = true)
    {r : Region} (hr : s.RegionOk r) : (s.commit d).RegionOk r := by
  obtain ⟨hwf, hwithin⟩ := hr
  rw [State.RegionOk, State.commit_mem, State.commit_cfg]
  rcases hw : d.cell with _ | w
  · exact ⟨hwf, hwithin⟩
  · rw [State.applyCell_mem]
    split
    · next hregion =>
      subst hregion
      exact ⟨Memory.wf_writeWord hwf _ _,
        Memory.within_writeWord hwithin _ fun _ hk => hd.regionByte hok hw hk⟩
    · exact ⟨hwf, hwithin⟩

/-- An executed instruction keeps the invariant: the configuration is the same, the PC is aligned, the regions are kept. -/
theorem exec_preserves_inv {i : Instr} {s t : State} (hs : s.Inv) (hexec : exec i s = .next t) : t.Inv := by
  obtain ⟨hok, hpc, hmem⟩ := State.inv_iff.mp hs
  obtain ⟨d, rfl, hd⟩ := exec_next hexec
  exact State.inv_iff.mpr ⟨by rwa [State.commit_cfg], State.commit_pc_aligned hpc hd, fun r => (hmem r).commit hd hok⟩

/-- A step keeps the invariant: when it gives a next state it is one executed instruction. -/
theorem step_preserves_inv {s t : State} (hs : s.Inv) (hstep : step s = .next t) : t.Inv := by
  obtain ⟨-, -, w, i, -, -, hexec⟩ := step_next hstep
  exact exec_preserves_inv hs hexec

/-- Settles O43: one step is one executed instruction, which keeps each part of the invariant. -/
theorem stepKeepsInvariant : Obligations.StepKeepsInvariant := by
  unfold Obligations.StepKeepsInvariant
  intro s t hs hstep
  exact step_preserves_inv hs hstep

end Sys2Proof.Machine
end

section
/-! The states of a run: the start meets the invariant, and no step from a state that meets it is refused for its
configuration or its PC (00_scope.md R9; 10_state.md R28). -/

namespace Sys2Proof.Machine

/-- The start of a run in a well-formed configuration meets the invariant. -/
theorem State.Inv.resetTo {c : Cfg} (h : c.ok = true) : (State.resetTo c).Inv := by
  obtain ⟨-, -, -, -, hgm, hgm', hpc, -, -⟩ := Cfg.ok_iff.mp h
  have hempty : Memory.wf [] := by simp [Memory.wf]
  exact ⟨h, wordAligned_iff.mpr hpc, hgm, hempty, hempty, hgm', rfl, rfl⟩

/-- Every state of a run meets the invariant: it holds at the start and each step keeps it. -/
theorem Reachable.inv {s : State} (h : Reachable s) : s.Inv := by
  induction h with
  | start c hok => exact State.Inv.resetTo hok
  | step s t _ hstep ih => exact step_preserves_inv ih hstep

/-- No executed instruction is refused. -/
theorem exec_ne_refused (i : Instr) (s : State) (r : Refusal) : exec i s ≠ .refused r := by
  rcases exec_cases i s with ⟨t, h, -⟩ | ⟨a, -, h⟩ | ⟨-, h⟩ <;> simp [h]

/-- In a well-formed configuration at an aligned PC, `step` refuses only where the program has ended. -/
theorem step_refused {s : State} {r : Refusal} (hok : s.cfg.ok = true) (hpc : s.pcAligned = true)
    (h : step s = .refused r) : s.fetch = none ∧ r = .programEnded s.pc := by
  simp only [step, hok, hpc, Bool.not_true, Bool.false_eq_true, if_false] at h
  split at h
  · next hfetch => cases h; exact ⟨hfetch, rfl⟩
  · split at h
    · cases h
    · exact absurd h (exec_ne_refused _ s r)

/-- Settles O45: the invariant of a run's states, and the one refusal left to them. -/
theorem reachableStatesMeetInvariant : Obligations.ReachableStatesMeetInvariant := by
  unfold Obligations.ReachableStatesMeetInvariant
  intro s hs
  have hinv := hs.inv
  have honly : ∀ r, step s = .refused r → r = .programEnded s.pc :=
    fun _ h => (step_refused hinv.cfg_ok hinv.pc_aligned h).2
  refine ⟨hinv, wordAligned_iff.mp hinv.pc_aligned, fun h => ?_, fun p h => ?_⟩
  · cases honly _ h
  · cases honly _ h

end Sys2Proof.Machine
end

section
/-! A decoded word is its instruction's encoding (40_decoder.md R149, R150): the fields of a matched row are the row's own
values where it fixes them, and the instruction's operands elsewhere. -/

namespace Sys2Proof

/-- Extraction keeps the row's identity. -/
@[simp] theorem extract_id (id : InstrId) (w : Word) : (extract id w).id = id := by cases id <;> rfl

/-- What a decoded word says: its instruction's row is in the table, matches the word and extracts to the instruction. -/
theorem decode_eq_some {invPresent : Bool} {w : Word} {i : Instr} (h : decode invPresent w = some i) :
    i.id.present invPresent = true ∧ (template i.id).matches w = true ∧ extract i.id w = i := by
  obtain ⟨t, hfind, rfl⟩ := Option.map_eq_some_iff.mp h
  obtain ⟨hpresent, ht⟩ := mem_templateTable.mp (List.mem_of_find?_eq_some hfind)
  have hmatches : t.matches w = true := List.find?_some (p := fun t : Template => t.matches w) hfind
  rw [extract_id, ← ht]
  exact ⟨hpresent, hmatches, rfl⟩

/-- Where a row fixes every bit of a field, a matching word's field is the row's. -/
theorem Template.field_of_matches {t : Template} {w : Word} (h : t.matches w = true) (k n : Nat)
    (hmask : t.mask.extractLsb' k n = BitVec.allOnes n) : w.extractLsb' k n = t.pattern.extractLsb' k n := by
  rw [Template.matches, beq_iff_eq] at h
  rw [← h, BitVec.extractLsb'_and, hmask, BitVec.and_allOnes]

/-- An R-format word is put together again from its fields (30_encoding.md R102). -/
theorem encodeR_of_fields {w : Word} {fn : BitVec 6} {rd rs rt : RegIdx} (hop : fieldOp w = 0#6) (hrs : fieldRs w = rs)
    (hrt : fieldRt w = rt) (hrd : fieldRd w = rd) (hsh : fieldSh w = 0#5) (hfn : fieldFn w = fn) :
    encodeR fn rd rs rt = w := by
  subst hrs hrt hrd hfn
  rw [encodeR, ← hop, ← hsh]
  apply BitVec.eq_of_getLsbD_eq
  intro k hk
  simp only [fieldOp, fieldRs, fieldRt, fieldRd, fieldSh, fieldFn, BitVec.getLsbD_append, BitVec.getLsbD_extractLsb']
  interval_cases k <;> simp

/-- An I-format word is put together again from its fields (30_encoding.md R103). -/
theorem encodeI_of_fields {w : Word} {op : BitVec 6} {rs rt : RegIdx} {imm : BitVec 16} (hop : fieldOp w = op)
    (hrs : fieldRs w = rs) (hrt : fieldRt w = rt) (himm : fieldImm w = imm) : encodeI op rs rt imm = w := by
  subst hop hrs hrt himm
  apply BitVec.eq_of_getLsbD_eq
  intro k hk
  simp only [encodeI, fieldOp, fieldRs, fieldRt, fieldImm, BitVec.getLsbD_append, BitVec.getLsbD_extractLsb']
  interval_cases k <;> simp

/-- A J-format word is put together again from its fields (30_encoding.md R105). -/
theorem encodeJ_of_fields {w : Word} {op : BitVec 6} {tgt : BitVec 26} (hop : fieldOp w = op)
    (htgt : fieldTgt w = tgt) : encodeJ op tgt = w := by
  subst hop htgt
  apply BitVec.eq_of_getLsbD_eq
  intro k hk
  simp only [encodeJ, fieldOp, fieldTgt, BitVec.getLsbD_append, BitVec.getLsbD_extractLsb']
  interval_cases k <;> simp

/-- The word of an instruction extracted from a matched row is the word it was extracted from (40_decoder.md R150): each
field is fixed by the row or is an operand. -/
theorem encode_extract {id : InstrId} {w : Word} (h : (template id).matches w = true) : encode (extract id w) = w := by
  have fixed := Template.field_of_matches h
  cases id
  case j => exact encodeJ_of_fields (fixed 26 6 rfl) (low_zext26 _).symm
  case smelt => exact encodeR_of_fields (fixed 26 6 rfl) rfl (fixed 16 5 rfl) rfl (fixed 6 5 rfl) (fixed 0 6 rfl)
  case add | sub | and | or | xor | slt | craft | brew =>
    exact encodeR_of_fields (fixed 26 6 rfl) rfl rfl rfl (fixed 6 5 rfl) (fixed 0 6 rfl)
  case hotbar => exact encodeI_of_fields (fixed 26 6 rfl) (fixed 21 5 rfl) (fixed 16 5 rfl) (imm16_sext16 _).symm
  case chat => exact encodeI_of_fields (fixed 26 6 rfl) rfl (fixed 16 5 rfl) (fixed 0 16 rfl)
  case sprint => exact encodeI_of_fields (fixed 26 6 rfl) rfl (fixed 16 5 rfl) (imm16_sext16 _).symm
  case andi | ori => exact encodeI_of_fields (fixed 26 6 rfl) rfl rfl (imm16_zext16 _).symm
  case beq | bne | addi | lw | sw | mine | place | ifmob | invld | invst =>
    exact encodeI_of_fields (fixed 26 6 rfl) rfl rfl (imm16_sext16 _).symm

/-- Encoding the instruction that a word decodes to gives the word (40_decoder.md R150). -/
theorem encode_of_decode {invPresent : Bool} {w : Word} {i : Instr} (h : decode invPresent w = some i) :
    encode i = w := by
  obtain ⟨-, hmatches, hextract⟩ := decode_eq_some h
  rw [← hextract]
  exact encode_extract hmatches

end Sys2Proof
end

section
/-! One step and one clock edge, outcome by outcome: which fault a step raises and what the fault interface then carries
(10_state.md R40, R45). -/

namespace Sys2Proof.Machine

/-! ### The step from a state the spec gives a meaning to (00_scope.md R9; 10_state.md R28) -/

section
variable {s : State} {w : Word} (hok : s.cfg.ok = true) (hpc : s.pcAligned = true) (hfetch : s.fetch = some w)
include hok hpc hfetch

theorem step_of_decode_none (hdecode : decode s.cfg.invPresent w = none) :
    step s = .fault (.decodeMiss w s.pc) := by
  simp [step, hok, hpc, hfetch, hdecode, raiseDecodeMiss]

theorem step_of_decode_some {i : Instr} (hdecode : decode s.cfg.invPresent w = some i) : step s = exec i s := by
  simp [step, hok, hpc, hfetch, hdecode]

end

/-! ### The two outcomes of an instruction of the table -/

/-- In one state an instruction has at most one faulting address. -/
theorem AddressFaultCause.unique {s : State} {i : Instr} {a b : Word} (ha : AddressFaultCause s a i)
    (hb : AddressFaultCause s b i) : a = b := by
  cases i
  case lw | sw | mine | place | ifmob | invld | invst => exact ha.2.trans hb.2.symm
  all_goals exact ha.elim

/-- A listed cause makes an instruction of the table raise AddressFault at that address. -/
theorem exec_of_cause {s : State} {i : Instr} {a : Word} (hpresent : i.id.present s.cfg.invPresent = true)
    (hcause : AddressFaultCause s a i) : exec i s = .fault (.addressFault a (encode i) s.pc) := by
  rcases exec_cases i s with ⟨t, -, hnone⟩ | ⟨b, hb, h⟩ | ⟨habsent, -⟩
  · exact absurd hcause (hnone a)
  · rwa [hcause.unique hb]
  · simp [hpresent] at habsent

/-- Without a cause an instruction of the table gives a next state. -/
theorem exec_of_no_cause {s : State} {i : Instr} (hpresent : i.id.present s.cfg.invPresent = true)
    (hnone : ∀ a, ¬ AddressFaultCause s a i) : ∃ t, exec i s = .next t := by
  rcases exec_cases i s with ⟨t, h, -⟩ | ⟨a, ha, -⟩ | ⟨habsent, -⟩
  · exact ⟨t, h⟩
  · exact absurd ha (hnone a)
  · simp [hpresent] at habsent

/-! ### The clock edge with reset low and step enable high -/

section
variable {s : State} (c : Cfg)

theorem clockEdge_of_next {t : State} (h : step s = .next t) : clockEdge ⟨false, true, c⟩ s = (t, none) := by
  simp [clockEdge, h]

theorem clockEdge_of_fault {f : Fault} (h : step s = .fault f) :
    clockEdge ⟨false, true, c⟩ s = (s, some (Fault.report f)) := by
  simp [clockEdge, h]

end

/-- Settles O40: the three outcomes of a fetched word, each reported by the clock edge; the instruction word of an
AddressFault is the fetched one because it encodes what that word decodes to. -/
theorem faultInterfaceCarriesReport : Obligations.FaultInterfaceCarriesReport := by
  unfold Obligations.FaultInterfaceCarriesReport
  intro s w c hok hpc hfetch
  refine ⟨fun hmiss => ?_, fun i a hdecode hcause => ?_, fun t ht => ?_⟩
  · rw [clockEdge_of_fault c (step_of_decode_none hok hpc hfetch hmiss)]
    rfl
  · obtain ⟨hpresent, -, -⟩ := decode_eq_some hdecode
    have hstep := (step_of_decode_some hok hpc hfetch hdecode).trans (exec_of_cause hpresent hcause)
    rw [encode_of_decode hdecode] at hstep
    rw [clockEdge_of_fault c hstep]
    rfl
  · rw [clockEdge_of_next c ht]

/-- Settles O41: reset comes first, then the step's outcome, and with both low the state is held. -/
theorem clockEdgeResetsStepsOrHolds : Obligations.ClockEdgeResetsStepsOrHolds := by
  unfold Obligations.ClockEdgeResetsStepsOrHolds
  intro s c
  refine ⟨fun en => ⟨s.resetPulse c, rfl, ?_⟩, fun _ => clockEdge_of_next c, fun _ => clockEdge_of_fault c, rfl⟩
  exact ⟨State.resetPulse_reg s c, rfl, fun _ => rfl, fun _ => rfl, rfl, rfl⟩

/-- Settles O42: the fields of the state at the start of a run. -/
theorem resetLeavesListedValues : Obligations.ResetLeavesListedValues := by
  unfold Obligations.ResetLeavesListedValues
  refine ⟨fun c => ?_, rfl, fun _ _ _ => rfl⟩
  exact ⟨State.resetTo_reg c, rfl, rfl, fun _ => rfl, fun _ => rfl, fun _ => rfl, rfl⟩

end Sys2Proof.Machine
end

section
/-! The general-memory port and the emit port beside the step (10_state.md R43, R44). -/

namespace Sys2Proof.Machine

/-- The presented instruction is of the table, and the step runs it. -/
theorem State.presented_eq_some {s : State} {i : Instr} (h : s.presented = some i) :
    i.id.present s.cfg.invPresent = true ∧ step s = exec i s := by
  rw [State.presented, Option.ite_none_right_eq_some, Bool.and_eq_true] at h
  obtain ⟨⟨hok, hpc⟩, hbind⟩ := h
  obtain ⟨w, hfetch, hdecode⟩ := Option.bind_eq_some_iff.mp hbind
  obtain ⟨hpresent, -, -⟩ := decode_eq_some hdecode
  exact ⟨hpresent, step_of_decode_some hok hpc hfetch hdecode⟩

theorem State.gmPort_of_presented {s : State} {i : Instr} (h : s.presented = some i) : s.gmPort = gmRequestOf i s := by
  rw [State.gmPort, h, Option.bind_some]

theorem State.emitPort_of_presented {s : State} {i : Instr} (h : s.presented = some i) :
    s.emitPort = emitValueOf i s := by
  rw [State.emitPort, h, Option.bind_some]

/-- Which request an instruction makes on the general-memory port: an aligned `lw` reads, an aligned `sw` writes `x[rt]`. -/
theorem gmRequestOf_eq_some {i : Instr} {s : State} {q : GmRequest} (h : gmRequestOf i s = some q) :
    ∃ rt off rs, (s.effAddr rs off).toNat % 4 = 0 ∧
      ((i = .lw rt off rs ∧ q = .read (s.effAddr rs off)) ∨
        (i = .sw rt off rs ∧ q = .write (s.effAddr rs off) (s.reg rt))) := by
  cases i
  case lw rt off rs =>
    obtain ⟨haligned, hq⟩ := Option.ite_none_right_eq_some.mp h
    exact ⟨rt, off, rs, wordAligned_iff.mp haligned, .inl ⟨rfl, (Option.some.inj hq).symm⟩⟩
  case sw rt off rs =>
    obtain ⟨haligned, hq⟩ := Option.ite_none_right_eq_some.mp h
    exact ⟨rt, off, rs, wordAligned_iff.mp haligned, .inr ⟨rfl, (Option.some.inj hq).symm⟩⟩
  all_goals cases h

/-- An instruction presents a value on the emit port exactly when it is `chat`, and the value is its register's. -/
theorem emitValueOf_eq_some_iff {i : Instr} {s : State} {v : Word} :
    emitValueOf i s = some v ↔ ∃ rs, i = .chat rs ∧ v = s.reg rs := by
  constructor
  · intro h
    cases i
    case chat rs => exact ⟨rs, rfl, (Option.some.inj h).symm⟩
    all_goals cases h
  · rintro ⟨rs, rfl, rfl⟩
    rfl

/-- With `i` a `lw` or `sw` at the effective address `ea`, aligned, existence of the word decides between AddressFault and a
next state. -/
theorem exec_of_gm_access {s : State} {i : Instr} {ea : Word} (hpresent : i.id.present s.cfg.invPresent = true)
    (hcause : ∀ a, AddressFaultCause s a i ↔ GmAccessFails s ea a) (haligned : ea.toNat % 4 = 0) :
    (s.cfg.gmValid ea = false → exec i s = .fault (.addressFault ea (encode i) s.pc)) ∧
    (s.cfg.gmValid ea = true → ∃ t, exec i s = .next t) := by
  constructor
  · intro hinvalid
    exact exec_of_cause hpresent ((hcause ea).mpr ⟨.inr hinvalid, rfl⟩)
  · intro hvalid
    refine exec_of_no_cause hpresent fun a ha => ?_
    obtain ⟨hmisaligned | hinvalid, -⟩ := (hcause a).mp ha
    · exact hmisaligned haligned
    · simp [hvalid] at hinvalid

/-- The causes of AddressFault of `lw` and `sw`, at the model's effective address (43_load_store.md R208). -/
theorem addressFaultCause_lw_iff {s : State} {rt rs : RegIdx} {off a : Word} :
    AddressFaultCause s a (.lw rt off rs) ↔ GmAccessFails s (s.effAddr rs off) a := by
  rw [AddressFaultCause, State.effAddr_eq]

theorem addressFaultCause_sw_iff {s : State} {rt rs : RegIdx} {off a : Word} :
    AddressFaultCause s a (.sw rt off rs) ↔ GmAccessFails s (s.effAddr rs off) a := by
  rw [AddressFaultCause, State.effAddr_eq]

/-- `chat` always gives a next state, with its text appended (45_system.md R242). -/
theorem exec_chat (rs : RegIdx) (s : State) :
    ∃ t, exec (.chat rs) s = .next t ∧ t.out = s.out ++ decText s.cfg.lineTerm (s.reg rs) :=
  ⟨_, rfl, by simp⟩

/-- Settles O55: each port from the instruction that drives it, and the step as that instruction's outcome. -/
theorem portsAgreeWithStep : Obligations.PortsAgreeWithStep := by
  unfold Obligations.PortsAgreeWithStep
  intro s i hi
  obtain ⟨hpresent, hstep⟩ := State.presented_eq_some hi
  simp only [State.gmPort_of_presented hi, State.emitPort_of_presented hi, hstep]
  refine ⟨fun q hq => ?_, fun v => emitValueOf_eq_some_iff, fun v hv => ?_⟩
  · obtain ⟨rt, off, rs, haligned, hcase⟩ := gmRequestOf_eq_some hq
    refine ⟨rt, off, rs, haligned, hcase, ?_⟩
    rcases hcase with ⟨rfl, rfl⟩ | ⟨rfl, rfl⟩
    · obtain ⟨hfault, hnext⟩ := exec_of_gm_access hpresent (fun _ => addressFaultCause_lw_iff) haligned
      exact ⟨fun h => ⟨_, hfault h⟩, hnext⟩
    · obtain ⟨hfault, hnext⟩ := exec_of_gm_access hpresent (fun _ => addressFaultCause_sw_iff) haligned
      exact ⟨fun h => ⟨_, hfault h⟩, hnext⟩
  · obtain ⟨rs, rfl, rfl⟩ := emitValueOf_eq_some_iff.mp hv
    exact exec_chat rs s

end Sys2Proof.Machine
end

section
/-! What an instruction writes and reads of the register file (10_state.md R22, R26). -/

namespace Sys2Proof.Machine

/-- The register write of a commit leaves every other register alone. -/
theorem State.commit_reg_of_ne {s : State} {d : Delta} {r : RegIdx} (h : ∀ p ∈ d.reg, p.1 ≠ r) :
    (s.commit d).reg r = s.reg r := by
  rw [State.commit_reg]
  rcases hd : d.reg with _ | ⟨i, v⟩
  · rfl
  · rw [State.applyReg_some, State.reg_setReg, if_neg (h _ hd).symm]
    split
    · next hzero => rw [hzero, State.reg_zero]
    · rfl

/-- Settles O47: the one register write of a commit goes to the register that the access table names. -/
theorem onlyNamedRegisterIsWritten : Obligations.OnlyNamedRegisterIsWritten := by
  unfold Obligations.OnlyNamedRegisterIsWritten
  intro i s t hexec
  obtain ⟨d, rfl, hd⟩ := exec_next hexec
  refine ⟨fun r hr => State.commit_reg_of_ne fun p hp hpr => hr ?_, State.reg_zero s, State.reg_zero _⟩
  rw [← hpr]
  exact hd.reg p hp

/-! ### Noninterference: what an instruction does depends on the register file only through the registers it reads -/

/-- The state with another register file. -/
def State.withRegs (s : State) (f : RegFile) : State := { s with regs := f }

/-- A state that agrees with `s` in everything but the register file is `s` with that file. -/
theorem State.eq_withRegs {s u : State} (hpc : u.pc = s.pc) (hgm : u.gm = s.gm) (hworld : u.world = s.world)
    (hinv : u.inv = s.inv) (hout : u.out = s.out) (hcfg : u.cfg = s.cfg) : u = s.withRegs u.regs := by
  cases u
  subst hpc hgm hworld hinv hout hcfg
  rfl

section
variable (s : State) (f : RegFile)

@[simp] theorem State.withRegs_pcNext : (s.withRegs f).pcNext = s.pcNext := rfl
@[simp] theorem State.withRegs_cfg : (s.withRegs f).cfg = s.cfg := rfl
@[simp] theorem State.withRegs_out : (s.withRegs f).out = s.out := rfl
@[simp] theorem State.withRegs_mem (r : Region) : (s.withRegs f).mem r = s.mem r := by cases r <;> rfl
@[simp] theorem State.withRegs_memRead (a : Word) : (s.withRegs f).memRead a = s.memRead a := rfl
@[simp] theorem State.withRegs_memWrite (a v : Word) : (s.withRegs f).memWrite a v = s.memWrite a v := rfl
@[simp] theorem State.withRegs_regionRead (r : CellRegion) (idx : Int) :
    (s.withRegs f).regionRead r idx = s.regionRead r idx := by cases r <;> rfl
@[simp] theorem State.withRegs_regionWrite (r : CellRegion) (idx : Int) (v : Word) :
    (s.withRegs f).regionWrite r idx v = s.regionWrite r idx v := rfl
@[simp] theorem State.withRegs_branchTarget (disp : Word) : (s.withRegs f).branchTarget disp = s.branchTarget disp := rfl

end

/-- Two outcomes, from `s` and from `s` with register file `f`, are the same fault, or commit the same writes; among these,
where `dest` names a register, is that register's. -/
def SameEffects (s : State) (f : RegFile) (dest : Option RegIdx) (o p : Host.Outcome State Fault Refusal) : Prop :=
  (∃ r, o = .fault r ∧ p = .fault r) ∨
  ∃ d : Delta, o = .next (s.commit d) ∧ p = .next ((s.withRegs f).commit d) ∧ d.reg.map Prod.fst = dest

section
variable {s : State} {f : RegFile}

theorem SameEffects.commit (d : Delta) :
    SameEffects s f (d.reg.map Prod.fst) (.next (s.commit d)) (.next ((s.withRegs f).commit d)) :=
  .inr ⟨d, rfl, rfl, rfl⟩

theorem SameEffects.writeResult {dest : RegIdx} (v : Word) :
    SameEffects s f (some dest) (writeResult s dest v) (writeResult (s.withRegs f) dest v) :=
  SameEffects.commit _

theorem SameEffects.loadWith {i : Instr} {dest : RegIdx} (x : Except Word Word) (g : Word → Word) :
    SameEffects s f (some dest) (loadWith i s dest x g) (loadWith i (s.withRegs f) dest x g) := by
  cases x with
  | error a => exact .inl ⟨_, rfl, rfl⟩
  | ok v => exact SameEffects.commit _

theorem SameEffects.storeWith {i : Instr} (x : Except Word CellWrite) :
    SameEffects s f none (storeWith i s x) (storeWith i (s.withRegs f) x) := by
  cases x with
  | error a => exact .inl ⟨_, rfl, rfl⟩
  | ok w => exact SameEffects.commit _

theorem SameEffects.ifInventory {i : Instr} {dest : Option RegIdx} {o p : Host.Outcome State Fault Refusal}
    (h : SameEffects s f dest o p) : SameEffects s f dest (ifInventory i s o) (ifInventory i (s.withRegs f) p) := by
  rcases hpresent : s.cfg.invPresent
  · rw [ifInventory_absent i s o hpresent, ifInventory_absent i (s.withRegs f) p hpresent]
    exact .inl ⟨_, rfl, rfl⟩
  · rwa [ifInventory_present i s o hpresent, ifInventory_present i (s.withRegs f) p hpresent]

/-- An instruction has the same effects with every register file that agrees where the access table says it reads (R26):
its meaning mentions no other register. -/
theorem exec_sameEffects (i : Instr) (h : ∀ r ∈ readsRegs i, (s.withRegs f).reg r = s.reg r) :
    SameEffects s f (writesReg s.cfg i) (exec i s) (exec i (s.withRegs f)) := by
  cases i
  case j => exact SameEffects.commit _
  case hotbar => exact SameEffects.writeResult _
  all_goals simp only [readsRegs, List.forall_mem_cons] at h
  case add | sub | and | or | xor | slt | craft | brew | smelt =>
    simp only [exec, execAdd, execSub, execAnd, execOr, execXor, execSlt, execCraft, execBrew, execSmelt, h]
    exact SameEffects.writeResult _
  case addi | andi | ori =>
    simp only [exec, execAddi, execAndi, execOri, h]
    exact SameEffects.writeResult _
  case beq | bne | sprint =>
    simp only [exec, execBeq, execBne, execSprint, State.withRegs_branchTarget, h]
    exact SameEffects.commit _
  case chat =>
    simp only [exec, execChat, State.withRegs_cfg, h]
    exact SameEffects.commit _
  case lw =>
    simp only [exec, execLw, State.effAddr, State.withRegs_memRead, h]
    exact SameEffects.loadWith _ _
  case sw =>
    simp only [exec, execSw, State.effAddr, State.withRegs_memWrite, h]
    exact SameEffects.storeWith _
  case mine | ifmob =>
    simp only [exec, execMine, execIfmob, State.cellIndex, State.withRegs_regionRead, h]
    exact SameEffects.loadWith _ _
  case place =>
    simp only [exec, execPlace, State.cellIndex, State.withRegs_regionWrite, h]
    exact SameEffects.storeWith _
  case invld =>
    simp only [exec, execInvld, State.cellIndex, State.withRegs_regionRead, h]
    exact (SameEffects.loadWith _ _).ifInventory
  case invst =>
    simp only [exec, execInvst, State.cellIndex, State.withRegs_regionWrite, h]
    exact (SameEffects.storeWith _).ifInventory

/-- The same writes leave the same value in the register they write. -/
theorem State.commit_reg_withRegs {d : Delta} {r : RegIdx} (h : d.reg.map Prod.fst = some r) :
    ((s.withRegs f).commit d).reg r = (s.commit d).reg r := by
  obtain ⟨⟨_, v⟩, hd, rfl⟩ := Option.map_eq_some_iff.mp h
  simp only [State.commit_reg, hd, State.applyReg_some, State.reg_setReg, if_true]

/-- The same writes leave the same memories. -/
theorem State.commit_mem_withRegs (d : Delta) (r : Region) : ((s.withRegs f).commit d).mem r = (s.commit d).mem r := by
  rw [State.commit_mem, State.commit_mem]
  rcases d.cell with _ | w
  · exact State.withRegs_mem s f r
  · rw [State.applyCell_mem, State.applyCell_mem, State.withRegs_mem]

end

/-- Settles O48: the second state is the first with another register file, and the two commit the same writes. -/
theorem onlyNamedRegistersAreRead : Obligations.OnlyNamedRegistersAreRead := by
  unfold Obligations.OnlyNamedRegistersAreRead
  intro i s u hpc hgm hworld hinv hout hcfg hreads
  rw [State.eq_withRegs hpc hgm hworld hinv hout hcfg] at hreads ⊢
  rcases exec_sameEffects i hreads with hfault | ⟨d, hs, hu, hdest⟩
  · exact .inl hfault
  · have hmem := State.commit_mem_withRegs (s := s) (f := u.regs) d
    refine .inr ⟨_, _, hs, hu, ?_, hmem .general, hmem .world, hmem .inventory, ?_, ?_, fun r hr => ?_⟩
    · simp only [State.commit_pc, State.withRegs_pcNext]
    · simp only [State.commit_out, State.withRegs_out]
    · simp only [State.commit_cfg, State.withRegs_cfg]
    · exact State.commit_reg_withRegs (hdest.trans hr)

end Sys2Proof.Machine
end

section
/-! Which bytes of which region an instruction can reach (20_memory.md R62, R69). -/

namespace Sys2Proof.Machine

/-- Committing allowed writes leaves a region alone that the address decoder does not select for a write. -/
theorem State.commit_mem_of_not_stored {i : Instr} {s : State} {d : Delta} (hd : d.Allowed i s) {r : Region}
    (hr : accessOf i ≠ some (r, .write)) : (s.commit d).mem r = s.mem r := by
  rw [State.commit_mem]
  rcases hw : d.cell with _ | w
  · rfl
  · rw [State.applyCell_mem, if_neg]
    rintro rfl
    exact hr (hd.region w hw)

/-- Only `chat` has text to append (10_state.md R34). -/
theorem Delta.Allowed.emit_nil {i : Instr} {s : State} {d : Delta} (hd : d.Allowed i s) (hi : i.id ≠ .chat) :
    d.emit.getD [] = [] := by
  rcases he : d.emit with _ | bytes
  · rfl
  · exact absurd (hd.emit (by rw [he]; rfl)) hi

/-- Settles O49: the allowed writes of an instruction, committed, field by field. -/
theorem onlyNamedRegionIsWritten : Obligations.OnlyNamedRegionIsWritten := by
  unfold Obligations.OnlyNamedRegionIsWritten
  intro i s t hexec
  obtain ⟨d, rfl, hd⟩ := exec_next hexec
  refine ⟨fun r hr a => ?_, ⟨_, State.commit_out s d, hd.emit_nil⟩, State.commit_cfg s d⟩
  rw [State.readByte, State.commit_mem_of_not_stored hd hr, State.readByte]

/-- Settles O52: no address of a region's window is one that general memory has, which is a cause of AddressFault for `lw`
and `sw`. -/
theorem generalAccessCannotReachRegions : Obligations.GeneralAccessCannotReachRegions := by
  unfold Obligations.GeneralAccessCannotReachRegions
  intro s rt rs off hok hregion
  have hfails : GmAccessFails s (s.effAddr rs off) (s.effAddr rs off) :=
    ⟨.inr (Cfg.gmValid_eq_false_of_region hok hregion), rfl⟩
  exact ⟨⟨_, exec_of_cause rfl (addressFaultCause_lw_iff.mpr hfails)⟩,
    ⟨_, exec_of_cause rfl (addressFaultCause_sw_iff.mpr hfails)⟩⟩

end Sys2Proof.Machine
end

section
/-! The cell index formed modulo 2^32 instead of over the integers (20_memory.md R71). -/

namespace Sys2Proof

/-- In an accepted configuration the window of a region that exists fits in the address space. -/
theorem Cfg.window_fits {c : Cfg} (h : c.ok = true) {r : CellRegion} (hr : r = .inventory → c.invPresent = true) :
    (c.window r).fits = true := by
  obtain ⟨hworld, -, hinv, -⟩ := Cfg.ok_iff.mp h
  cases r
  case world => exact hworld
  case inventory => exact (hinv (hr rfl)).1

/-- Sign extension keeps the signed value, which is one of 16 bits. -/
theorem sint_sext16_bounds (imm : BitVec 16) : -2 ^ 15 ≤ sint (sext16 imm) ∧ sint (sext16 imm) ≤ 2 ^ 15 - 1 := by
  have hlo := BitVec.le_toInt imm
  have hhi := BitVec.toInt_lt (x := imm)
  rw [sint, sext16, BitVec.toInt_signExtend_of_le (by omega)]
  omega

/-- The sum formed modulo 2^32 and read as signed is the balanced residue of the mathematical sum. -/
theorem sint_wrap32_add (x : Word) (k : Int) : sint (wrap32 ((uint x : Int) + k)) = (sint x + k).bmod (2 ^ 32) := by
  rw [sint, wrap32, BitVec.toInt_ofInt, sint, BitVec.toInt_eq_toNat_bmod, Int.bmod_add_bmod]

/-- A sum that leaves the signed range by at most `2^15` comes back, modulo 2^32, beyond `2^30` or below 0: it is in a range
of at most `2^30` values exactly when its residue is, and is then equal to it. -/
theorem bmod_in_range_iff {n idx : Int} (hn : n ≤ 2 ^ 30) (hlo : -2 ^ 31 - 2 ^ 15 ≤ idx) (hhi : idx < 2 ^ 31 + 2 ^ 15) :
    (0 ≤ idx ∧ idx < n ↔ 0 ≤ idx.bmod (2 ^ 32) ∧ idx.bmod (2 ^ 32) < n) ∧
    (0 ≤ idx → idx < n → idx.bmod (2 ^ 32) = idx) := by
  have hresidue : idx.bmod (2 ^ 32) = idx ∧ -2 ^ 31 ≤ idx ∧ idx < 2 ^ 31 ∨
      idx.bmod (2 ^ 32) = idx - 2 ^ 32 ∧ 2 ^ 31 ≤ idx ∨ idx.bmod (2 ^ 32) = idx + 2 ^ 32 ∧ idx < -2 ^ 31 := by
    rw [Int.bmod_def]
    omega
  omega

/-- Settles O53: the two indices are congruent, and a window's cells are too few to tell them apart. -/
theorem wrappedIndexGivesSameVerdict : Obligations.WrappedIndexGivesSameVerdict := by
  unfold Obligations.WrappedIndexGivesSameVerdict
  rintro c r x imm hok hr idx _ hidx rfl
  have hcells := Window.cells_le_of_fits (Cfg.window_fits hok hr)
  have hxlo : -2 ^ 31 ≤ sint x := BitVec.le_toInt x
  have hxhi : sint x < 2 ^ 31 := BitVec.toInt_lt
  obtain ⟨hklo, hkhi⟩ := sint_sext16_bounds imm
  rw [sint_wrap32_add, ← hidx]
  obtain ⟨hverdict, heq⟩ := bmod_in_range_iff (n := (c.window r).cells) (idx := idx) (by omega) (by omega) (by omega)
  exact ⟨by omega, by omega, hcells, hverdict, heq⟩

end Sys2Proof
end

section
/-! A stored word is what the next load from its address gives: the access primitives before and after one cell write, the
instructions that make it, and the host that makes it between steps (20_memory.md R80, R82). -/

namespace Sys2Proof.Machine

/-! ### When an access primitive answers, and with what (20_memory.md R67, R68, R72, R73) -/

section
variable {s : State}

theorem State.memWrite_eq_ok_iff {a v : Word} {w : CellWrite} :
    s.memWrite a v = .ok w ↔ a.toNat % 4 = 0 ∧ s.cfg.gmValid a = true ∧ w = ⟨.general, a.toNat, v⟩ := by
  rcases s.memWrite_cases a v with ⟨haligned, hvalid, h⟩ | ⟨hfails, h⟩ <;> rw [h]
  · simp [wordAligned_iff.mp haligned, hvalid, eq_comm]
  · simp only [reduceCtorEq, false_iff]
    rintro ⟨haligned, hvalid, -⟩
    simp [wordAligned_iff.mpr haligned, hvalid] at hfails

theorem State.regionWrite_eq_ok_iff {r : CellRegion} {idx : Int} {v : Word} {w : CellWrite} :
    s.regionWrite r idx v = .ok w ↔
      0 ≤ idx ∧ idx < (s.cfg.window r).cells ∧ w = ⟨CellRegion.toRegion r, s.cellAddr r idx.toNat, v⟩ := by
  rcases s.regionWrite_cases r idx v with ⟨hlo, hhi, h⟩ | ⟨hfails, h⟩ <;> rw [h]
  · simp [hlo, hhi, eq_comm]
  · simp only [reduceCtorEq, false_iff]
    rintro ⟨hlo, hhi, -⟩
    exact hfails ⟨hlo, hhi⟩

theorem State.memRead_eq_ok {a : Word} (haligned : a.toNat % 4 = 0) (hvalid : s.cfg.gmValid a = true) :
    s.memRead a = .ok (s.gm.readWord a.toNat) := by
  rcases s.memRead_cases a with ⟨-, -, h⟩ | ⟨hfails, -⟩
  · exact h
  · simp [wordAligned_iff.mpr haligned, hvalid] at hfails

theorem State.regionRead_eq_ok {r : CellRegion} {idx : Int} (hlo : 0 ≤ idx) (hhi : idx < (s.cfg.window r).cells) :
    s.regionRead r idx = .ok (s.cell r idx.toNat) := by
  rcases s.regionRead_cases r idx with ⟨-, -, h⟩ | ⟨hfails, -⟩
  · exact h
  · exact absurd ⟨hlo, hhi⟩ hfails

end

/-! ### Reading where a cell write has been made -/

section
variable {s : State}

@[simp] theorem State.applyCell_cellAddr (w : Option CellWrite) (r : CellRegion) (idx : Nat) :
    (s.applyCell w).cellAddr r idx = s.cellAddr r idx := by rw [State.cellAddr, State.applyCell_cfg, State.cellAddr]

/-- The storage that a cell write goes to then holds the written word at the written address. -/
theorem State.readWord_applyCell {w : CellWrite} (hwf : Memory.wf (s.mem w.region)) :
    ((s.applyCell (some w)).mem w.region).readWord w.addr = w.value := by
  rw [State.applyCell_mem, if_pos rfl]
  exact Memory.readWord_writeWord hwf _ _

/-- `MemRead` gives the word that `MemWrite` wrote. -/
theorem State.memRead_applyCell {a v : Word} {w : CellWrite} (hwf : Memory.wf s.gm) (h : s.memWrite a v = .ok w) :
    (s.applyCell (some w)).memRead a = .ok v := by
  obtain ⟨haligned, hvalid, rfl⟩ := State.memWrite_eq_ok_iff.mp h
  rw [State.memRead_eq_ok haligned (by rwa [State.applyCell_cfg])]
  exact congrArg Except.ok (State.readWord_applyCell (w := ⟨.general, a.toNat, v⟩) hwf)

/-- `RegionRead` gives the cell that `RegionWrite` wrote. -/
theorem State.regionRead_applyCell {r : CellRegion} {idx : Int} {v : Word} {w : CellWrite}
    (hwf : Memory.wf (s.mem (CellRegion.toRegion r))) (h : s.regionWrite r idx v = .ok w) :
    (s.applyCell (some w)).regionRead r idx = .ok v := by
  obtain ⟨hlo, hhi, rfl⟩ := State.regionWrite_eq_ok_iff.mp h
  rw [State.regionRead_eq_ok hlo (by rwa [State.applyCell_cfg]), State.cell, State.applyCell_cellAddr]
  exact congrArg Except.ok
    (State.readWord_applyCell (w := ⟨CellRegion.toRegion r, s.cellAddr r idx.toNat, v⟩) hwf)

@[simp] theorem State.setPc_memRead (a target : Word) : (s.setPc target).memRead a = s.memRead a := rfl

@[simp] theorem State.setPc_regionRead (r : CellRegion) (idx : Int) (target : Word) :
    (s.setPc target).regionRead r idx = s.regionRead r idx := by cases r <;> rfl

end

/-! ### The stores -/

section
variable {s t : State} {rt rs : RegIdx} {off : Word}

/-- A store that gives a next state made the write that its access primitive answered and moved to the next instruction. -/
theorem storeWith_next {i : Instr} {x : Except Word CellWrite} (h : storeWith i s x = .next t) :
    ∃ w, x = .ok w ∧ t = (s.applyCell (some w)).setPc s.pcNext := by
  cases x with
  | error a => cases h
  | ok w => exact ⟨w, rfl, (next_inj h).symm⟩

/-- An Inventory instruction that gives a next state has the Inventory. -/
theorem ifInventory_next {i : Instr} {o : Host.Outcome State Fault Refusal} (h : ifInventory i s o = .next t) :
    s.cfg.invPresent = true ∧ o = .next t := by
  rcases hpresent : s.cfg.invPresent
  · rw [ifInventory_absent i s o hpresent] at h
    cases h
  · rw [ifInventory_present i s o hpresent] at h
    exact ⟨rfl, h⟩

theorem memRead_after_sw (hwf : Memory.wf s.gm) (h : exec (.sw rt off rs) s = .next t) :
    t.memRead (s.effAddr rs off) = .ok (s.reg rt) := by
  obtain ⟨w, hw, rfl⟩ := storeWith_next h
  rw [State.setPc_memRead, State.memRead_applyCell hwf hw]

theorem regionRead_after_place (hwf : Memory.wf s.world) (h : exec (.place rt off rs) s = .next t) :
    t.regionRead .world (s.cellIndex rs off) = .ok (s.reg rt) := by
  obtain ⟨w, hw, rfl⟩ := storeWith_next h
  rw [State.setPc_regionRead, State.regionRead_applyCell (r := .world) hwf hw]

theorem regionRead_after_invst (hwf : Memory.wf s.inv) (h : exec (.invst rt off rs) s = .next t) :
    t.cfg.invPresent = true ∧ t.regionRead .inventory (s.cellIndex rs off) = .ok (s.reg rt) := by
  obtain ⟨hpresent, h⟩ := ifInventory_next h
  obtain ⟨w, hw, rfl⟩ := storeWith_next h
  rw [State.setPc_regionRead, State.regionRead_applyCell (r := .inventory) hwf hw, State.setPc_cfg, State.applyCell_cfg]
  exact ⟨hpresent, rfl⟩

end

/-! ### The loads -/

section
variable {s : State} {rt rs : RegIdx} {off v : Word}

theorem exec_lw_of_memRead (h : s.memRead (s.effAddr rs off) = .ok v) :
    exec (.lw rt off rs) s = .next (s.commit { reg := some (rt, v) }) := by
  rw [exec, execLw, h, loadWith_ok, id]

theorem exec_mine_of_regionRead (h : s.regionRead .world (s.cellIndex rs off) = .ok v) :
    exec (.mine rt off rs) s = .next (s.commit { reg := some (rt, v) }) := by
  rw [exec, execMine, h, loadWith_ok, id]

theorem exec_ifmob_of_regionRead (h : s.regionRead .world (s.cellIndex rs off) = .ok v) :
    exec (.ifmob rt off rs) s = .next (s.commit { reg := some (rt, conditionWord (isNegative v)) }) := by
  rw [exec, execIfmob, h, loadWith_ok]

theorem exec_invld_of_regionRead (hpresent : s.cfg.invPresent = true)
    (h : s.regionRead .inventory (s.cellIndex rs off) = .ok v) :
    exec (.invld rt off rs) s = .next (s.commit { reg := some (rt, v) }) := by
  rw [exec, execInvld, ifInventory_present _ _ _ hpresent, h, loadWith_ok, id]

/-- A register but register 0 holds the value that a load committed to it. -/
theorem State.commit_reg_self (hrt : rt ≠ 0#5) : (s.commit { reg := some (rt, v) }).reg rt = v := by
  rw [State.commit_reg, State.applyReg_some, State.reg_setReg, if_neg hrt, if_pos rfl]

/-- `pc_next`, as the spec writes it (44_control_flow.md R221). -/
theorem State.pcNext_eq : s.pcNext = wrap32 (uint s.pc + 4) := by
  simp [State.pcNext, wrap32, uint, BitVec.ofInt_add]

/-- A committed register write changes the register and the PC only. -/
theorem onlyWritesReg_commit : OnlyWritesReg s (s.commit { reg := some (rt, v) }) rt v := by
  refine ⟨fun r => ?_, State.pcNext_eq, fun r a => ?_, by simp, by simp⟩
  · rw [State.commit_reg, State.applyReg_some, State.reg_setReg]
  · rw [State.readByte, State.commit_mem, State.applyCell_none, State.readByte]

/-- The result of `ifmob`, as the spec writes it (43_load_store.md R205). -/
theorem conditionWord_isNegative (v : Word) :
    conditionWord (isNegative v) = if sint v < 0 then 1#32 else 0#32 := by
  simp [conditionWord, isNegative]

end

/-- Settles O51: each store leaves its access primitive answering the stored value, which each load of that address takes to
its register. -/
theorem loadsSeeTheLastStore : Obligations.LoadsSeeTheLastStore := by
  unfold Obligations.LoadsSeeTheLastStore
  intro s t rt rs rd rb off off' hrd
  refine ⟨fun hwf hstore haddr => ?_, fun hwf hstore hidx => ?_, fun hwf hstore hidx => ?_⟩
  · have hread := memRead_after_sw hwf hstore
    rw [← haddr] at hread
    exact ⟨_, exec_lw_of_memRead hread, State.commit_reg_self hrd⟩
  · have hread := regionRead_after_place hwf hstore
    rw [← hidx] at hread
    refine ⟨⟨_, exec_mine_of_regionRead hread, State.commit_reg_self hrd⟩, _, exec_ifmob_of_regionRead hread, ?_⟩
    rw [State.commit_reg_self hrd, conditionWord_isNegative]
  · obtain ⟨hpresent, hread⟩ := regionRead_after_invst hwf hstore
    rw [← hidx] at hread
    exact ⟨_, exec_invld_of_regionRead hpresent hread, State.commit_reg_self hrd⟩

/-! ### The host's write between steps (10_state.md R41) -/

section
variable {s : State} {addr v : Word}

/-- The host's accepted write is the write that `MemWrite` answers, and nothing else. -/
theorem State.hostStore_eq_ok_iff {t : State} :
    s.hostStore addr v = .ok t ↔ ∃ w, s.memWrite addr v = .ok w ∧ t = s.applyCell (some w) := by
  rw [State.hostStore]
  cases s.memWrite addr v <;> simp [Except.map, eq_comm]

/-- The write that `MemWrite` answers is one that `sw` may commit. -/
theorem Delta.allowed_memWrite {w : CellWrite} (h : s.memWrite addr v = .ok w) (rt rs : RegIdx) (off : Word) :
    Delta.Allowed { cell := some w } (.sw rt off rs) s := by
  obtain ⟨haligned, hvalid, rfl⟩ := State.memWrite_eq_ok_iff.mp h
  refine ⟨by simp, by simp [accessOf], ?_, by simp, by simp, by simp⟩
  rintro _ ⟨⟩
  exact .inl ⟨addr, haligned, hvalid, rfl, rfl⟩

/-- A write that `MemWrite` answers keeps the invariant: the regions as after a `sw`, and nothing else changes. -/
theorem State.Inv.applyCell (hs : s.Inv) {w : CellWrite} (h : s.memWrite addr v = .ok w) :
    (s.applyCell (some w)).Inv := by
  obtain ⟨hok, hpc, hmem⟩ := State.inv_iff.mp hs
  refine State.inv_iff.mpr ⟨by rwa [State.applyCell_cfg], by rwa [State.applyCell_pc], fun r => ?_⟩
  have hr := (hmem r).commit (Delta.allowed_memWrite h 0#5 0#5 0#32) hok
  rwa [State.RegionOk, State.commit_mem, State.commit_cfg, ← State.applyCell_cfg s (some w)] at hr

end

/-- Settles O57: the accepted write is one cell write to general memory; the invariant, the frame and the later `lw` are
those of that write. -/
theorem hostStoreKeepsInvariant : Obligations.HostStoreKeepsInvariant := by
  unfold Obligations.HostStoreKeepsInvariant
  intro s addr v hs
  simp only [State.hostStore_eq_ok_iff]
  constructor
  · rintro _ ⟨w, hwrite, rfl⟩
    have hinv := hs.applyCell hwrite
    have hread := State.memRead_applyCell hs.gm_wf hwrite
    obtain ⟨-, -, rfl⟩ := State.memWrite_eq_ok_iff.mp hwrite
    refine ⟨hinv, fun r => State.applyCell_reg s r _, rfl, rfl, rfl, rfl, rfl, ?_, fun b hb => ?_,
      fun rt rs off haddr => ?_⟩
    · exact Memory.readWord_writeWord hs.gm_wf addr.toNat v
    · exact (Memory.readByte_writeWord hs.gm_wf addr.toNat v b).trans (if_neg hb)
    · exact ⟨_, exec_lw_of_memRead (by rw [haddr, hread]), onlyWritesReg_commit⟩
  · constructor
    · rintro ⟨_, w, hwrite, -⟩
      obtain ⟨haligned, hvalid, -⟩ := State.memWrite_eq_ok_iff.mp hwrite
      exact ⟨haligned, hvalid⟩
    · rintro ⟨haligned, hvalid⟩
      exact ⟨_, _, State.memWrite_eq_ok_iff.mpr ⟨haligned, hvalid, rfl⟩, rfl⟩

end Sys2Proof.Machine
end

section
/-! Hits and misses of the decoder. What the flat match accepts, the two-level view accepts (40_decoder.md R144), so a word
that the opcode map, the funct map or a fixed-zero field turns away matches no row (30_encoding.md R109 to R112). -/

namespace Sys2Proof

/-! ### The fields of a concatenated word (30_encoding.md R101 to R103) -/

section
open BitVec
variable (op fn : BitVec 6) (rs rt rd : RegIdx) (sh : BitVec 5) (imm : BitVec 16)

@[simp] theorem fieldOp_appendR : fieldOp (op ++ rs ++ rt ++ rd ++ sh ++ fn) = op :=
  (extractLsb'_append_eq_of_le (by decide)).trans <| (extractLsb'_append_eq_of_le (by decide)).trans <|
    (extractLsb'_append_eq_of_le (by decide)).trans <| (extractLsb'_append_eq_of_le (by decide)).trans
      extractLsb'_append_eq_left

@[simp] theorem fieldRt_appendR : fieldRt (op ++ rs ++ rt ++ rd ++ sh ++ fn) = rt :=
  (extractLsb'_append_eq_of_le (by decide)).trans <| (extractLsb'_append_eq_of_le (by decide)).trans <|
    (extractLsb'_append_eq_of_le (by decide)).trans extractLsb'_append_eq_right

@[simp] theorem fieldSh_appendR : fieldSh (op ++ rs ++ rt ++ rd ++ sh ++ fn) = sh :=
  (extractLsb'_append_eq_of_le (by decide)).trans extractLsb'_append_eq_right

@[simp] theorem fieldFn_appendR : fieldFn (op ++ rs ++ rt ++ rd ++ sh ++ fn) = fn :=
  extractLsb'_append_eq_right

@[simp] theorem fieldOp_encodeI : fieldOp (encodeI op rs rt imm) = op :=
  (extractLsb'_append_eq_of_le (by decide)).trans <| (extractLsb'_append_eq_of_le (by decide)).trans
    extractLsb'_append_eq_left

end

/-! ### What a matched row says of the word -/

/-- The opcode and funct maps send a word to the identity of any row it matches (30_encoding.md R109, R110). -/
theorem maps_of_matches {id : InstrId} {w : Word} (h : (template id).matches w = true) :
    (if fieldOp w == 0#6 then functMap (fieldFn w).toNat else opcodeMap (fieldOp w).toNat) = some id := by
  have fixed := Template.field_of_matches h
  cases id
  case add | sub | and | or | xor | slt | craft | brew | smelt =>
    rw [fieldOp, fieldFn, fixed 26 6 rfl, fixed 0 6 rfl]; rfl
  case j | beq | bne | addi | andi | ori | lw | sw | mine | place | ifmob | invld | invst | hotbar | chat | sprint =>
    rw [fieldOp, fixed 26 6 rfl]; rfl

/-- The fields a row fixes at zero are zero in a word it matches (30_encoding.md R111). -/
theorem fixedZero_of_matches {id : InstrId} {w : Word} (h : (template id).matches w = true) : fixedZero id w = true := by
  have fixed := Template.field_of_matches h
  cases id
  case add | sub | and | or | xor | slt | craft | brew => exact beq_iff_eq.mpr (fixed 6 5 rfl)
  case smelt => exact Bool.and_eq_true_iff.mpr ⟨beq_iff_eq.mpr (fixed 6 5 rfl), beq_iff_eq.mpr (fixed 16 5 rfl)⟩
  case hotbar => exact Bool.and_eq_true_iff.mpr ⟨beq_iff_eq.mpr (fixed 21 5 rfl), beq_iff_eq.mpr (fixed 16 5 rfl)⟩
  case chat => exact Bool.and_eq_true_iff.mpr ⟨beq_iff_eq.mpr (fixed 16 5 rfl), beq_iff_eq.mpr (fixed 0 16 rfl)⟩
  case sprint => exact beq_iff_eq.mpr (fixed 16 5 rfl)
  case j | beq | bne | addi | andi | ori | lw | sw | mine | place | ifmob | invld | invst => rfl

/-- A word matches the row of one identity at most (40_decoder.md R143): the maps name one. -/
theorem id_unique_of_matches {a b : InstrId} {w : Word} (ha : (template a).matches w = true)
    (hb : (template b).matches w = true) : a = b :=
  Option.some.inj ((maps_of_matches ha).symm.trans (maps_of_matches hb))

/-! ### Hits -/

/-- With the Inventory present every identity has its row (40_decoder.md R141). -/
@[simp] theorem InstrId.present_true (id : InstrId) : id.present true = true := by cases id <;> rfl

section
variable {invPresent : Bool} {w : Word}

/-- A word that matches a present identity's row decodes to the instruction extracted at that identity. -/
theorem decode_of_matches {id : InstrId} (hpresent : id.present invPresent = true)
    (h : (template id).matches w = true) : decode invPresent w = some (extract id w) := by
  have hmem : template id ∈ templateTable invPresent := by simp [mem_templateTable, hpresent]
  obtain ⟨t, hfind⟩ := Option.isSome_iff_exists.mp
    (List.find?_isSome (p := fun t : Template => t.matches w).mpr ⟨_, hmem, h⟩)
  have hdecode : decode invPresent w = some (extract t.id w) := by rw [decode, matchRow, hfind, Option.map_some]
  obtain ⟨-, hmatches, -⟩ := decode_eq_some hdecode
  rw [extract_id] at hmatches
  rw [hdecode, id_unique_of_matches hmatches h]

/-! ### Misses -/

/-- A word that matches no identity's row decodes to nothing, with either table. -/
theorem decode_eq_none_of_no_match (h : ∀ id, (template id).matches w = false) : decode invPresent w = none :=
  Option.eq_none_iff_forall_ne_some.mpr fun i hi => by
    obtain ⟨-, hmatches, -⟩ := decode_eq_some hi
    simp [h] at hmatches

/-- A hit of the flat match is a hit of the two-level decoder, with the same instruction (40_decoder.md R144). -/
theorem decodeTwoLevel_of_decode {i : Instr} (h : decode invPresent w = some i) :
    decodeTwoLevel invPresent w = some i := by
  obtain ⟨hpresent, hmatches, hextract⟩ := decode_eq_some h
  rw [decodeTwoLevel, maps_of_matches hmatches]
  simp [hpresent, fixedZero_of_matches hmatches, hextract]

/-- A word the two-level decoder turns away matches no row. -/
theorem decode_eq_none_of_twoLevel (h : decodeTwoLevel invPresent w = none) : decode invPresent w = none :=
  Option.eq_none_iff_forall_ne_some.mpr fun i hi => by simp [decodeTwoLevel_of_decode hi] at h

/-- Under opcode 0, a word misses when its funct names no template or one with a non-zero fixed-zero field. -/
theorem decode_eq_none_of_functMap (hop : fieldOp w = 0#6)
    (h : ∀ id, functMap (fieldFn w).toNat = some id → fixedZero id w = false) : decode invPresent w = none := by
  apply decode_eq_none_of_twoLevel
  cases hid : functMap (fieldFn w).toNat with
  | none => simp [decodeTwoLevel, hop, hid]
  | some id => simp [decodeTwoLevel, hop, hid, h id hid]

/-- Under another opcode, a word misses when its opcode names no template or one with a non-zero fixed-zero field. -/
theorem decode_eq_none_of_opcodeMap (hop : fieldOp w ≠ 0#6)
    (h : ∀ id, opcodeMap (fieldOp w).toNat = some id → fixedZero id w = false) : decode invPresent w = none := by
  apply decode_eq_none_of_twoLevel
  cases hid : opcodeMap (fieldOp w).toNat with
  | none => simp [decodeTwoLevel, hop, hid]
  | some id => simp [decodeTwoLevel, hop, hid, h id hid]

/-- The funct map has the 9 functs of 30_encoding.md R110 and no other. -/
theorem functMap_eq_none {n : Nat} (h : n ∉ [0x20, 0x22, 0x24, 0x25, 0x26, 0x2A, 0x30, 0x31, 0x32]) :
    functMap n = none := by
  unfold functMap
  split <;> simp at h ⊢

/-- The opcode map has the 16 opcodes of 30_encoding.md R109 and no other. -/
theorem opcodeMap_eq_none {n : Nat} (h : n ∉ [0x02, 0x04, 0x05, 0x08, 0x0C, 0x0D, 0x23, 0x2B, 0x30, 0x31, 0x32, 0x33,
    0x34, 0x35, 0x36, 0x37]) : opcodeMap n = none := by
  unfold opcodeMap
  split <;> simp at h ⊢

/-- Each of the nine templates under opcode 0 fixes `sh` at zero (30_encoding.md R111). -/
theorem fixedZero_of_functMap {n : Nat} {id : InstrId} (hid : functMap n = some id) (hsh : fieldSh w ≠ 0#5) :
    fixedZero id w = false := by
  unfold functMap at hid
  split at hid <;> cases hid <;> simp [fixedZero, hsh]

end

/-! ### The obligations -/

/-- Settles O32: the maps name the word's one candidate template, and its fixed-zero test turns the word away. -/
theorem fixedZeroFieldsTakePartInMatch : Obligations.FixedZeroFieldsTakePartInMatch := by
  unfold Obligations.FixedZeroFieldsTakePartInMatch
  intro inv rs rt rd sh fn imm
  refine ⟨fun hsh => ?anyFunct, fun hrt => ?smelt, fun hne => ?hotbar, fun hne => ?chat, fun hrt => ?sprint⟩
  case anyFunct => exact decode_eq_none_of_functMap (by simp) fun id hid => fixedZero_of_functMap hid (by simpa)
  case smelt => exact decode_eq_none_of_functMap (by simp) (by simp [functMap, fixedZero, hrt])
  all_goals
    change decode inv (encodeI _ rs rt imm) = none
    apply decode_eq_none_of_opcodeMap (by simp)
  case hotbar | chat => simpa [opcodeMap, fixedZero] using not_and_or.mpr hne
  case sprint => simp [opcodeMap, fixedZero, hrt]

/-- Settles O33: neither map names a template for the word. -/
theorem unusedOpcodesAndFunctsMiss : Obligations.UnusedOpcodesAndFunctsMiss := by
  unfold Obligations.UnusedOpcodesAndFunctsMiss
  rintro inv w (hop | ⟨hop, hfn⟩)
  · obtain ⟨hne, hrest⟩ := not_or.mp (mt List.mem_cons.mpr hop)
    exact decode_eq_none_of_opcodeMap (fun h => hne (congrArg BitVec.toNat h)) (by simp [opcodeMap_eq_none hrest])
  · exact decode_eq_none_of_functMap hop (by simp [functMap_eq_none hfn])

/-- Settles O34: zero has an unused funct and all-ones an unused opcode. -/
theorem everyWordIsTemplateOrMiss : Obligations.EveryWordIsTemplateOrMiss := by
  unfold Obligations.EveryWordIsTemplateOrMiss
  refine ⟨fun id w h => ⟨_, decode_of_matches id.present_true h, extract_id id w⟩, fun w h => ?_, ?_, ?_⟩
  · exact ⟨decode_eq_none_of_no_match h, fun s hok hpc hfetch =>
      Machine.step_of_decode_none hok hpc hfetch (decode_eq_none_of_no_match h)⟩
  · exact unusedOpcodesAndFunctsMiss true _ (.inr (by decide))
  · exact unusedOpcodesAndFunctsMiss true _ (.inl (by decide))

/-- Settles O28: each listed word matches its row, and each near miss fails at a fixed-zero field or an unused funct. -/
theorem sampleWordsDecodeAsListed : Obligations.SampleWordsDecodeAsListed := by
  unfold Obligations.SampleWordsDecodeAsListed
  refine ⟨decode_of_matches (id := .add) rfl rfl, decode_of_matches (id := .smelt) rfl rfl,
    decode_of_matches (id := .addi) rfl rfl, decode_of_matches (id := .hotbar) rfl rfl,
    decode_of_matches (id := .sw) rfl rfl, decode_of_matches (id := .ifmob) rfl rfl,
    decode_of_matches (id := .bne) rfl rfl, decode_of_matches (id := .j) rfl rfl,
    decode_of_matches (id := .sprint) rfl rfl, decode_of_matches (id := .chat) rfl rfl, ?add, ?smelt, ?chat, ?zero⟩
  case add => exact decode_eq_none_of_functMap rfl fun _ hid => fixedZero_of_functMap hid (by decide)
  case smelt => exact decode_eq_none_of_functMap rfl (by rintro _ ⟨⟩; rfl)
  case chat => exact decode_eq_none_of_opcodeMap (by decide) (by rintro _ ⟨⟩; rfl)
  case zero => exact unusedOpcodesAndFunctsMiss true _ (.inr (by decide))

end Sys2Proof
end

section
/-! Encode against decode (40_decoder.md R150), and the flat match against the two-level view (R144): a word that the
opcode map, the funct map and the fixed-zero fields accept is the encoding of what is extracted from it, so it matches its
row. -/

namespace Sys2Proof

/-! ### The two families of lemmas, for every instruction -/

/-- Every instruction's word matches the row of its identity (40_decoder.md R142). -/
theorem Laws.EncodeMatchesTemplate.all (i : Instr) : Statement i :=
  Instr.rec (motive := Statement) add sub and or xor slt craft brew smelt j beq bne addi andi ori lw sw mine place ifmob
    invld invst hotbar chat sprint i

/-- Every well-formed instruction is extracted from its own word (40_decoder.md R148). -/
theorem Laws.ExtractInvertsEncode.all (i : Instr) : Statement i :=
  Instr.rec (motive := Statement) add sub and or xor slt craft brew smelt j beq bne addi andi ori lw sw mine place ifmob
    invld invst hotbar chat sprint i

/-- Extraction gives an immediate that the template's field carries (30_encoding.md R106). -/
@[simp] theorem wellFormed_extract (id : InstrId) (w : Word) : (extract id w).wellFormed = true := by
  cases id
  case add | sub | and | or | xor | slt | craft | brew | smelt | chat => rfl
  case j => exact isZext26_zext26 _
  case andi | ori => exact isZext16_zext16 _
  case beq | bne | addi | lw | sw | mine | place | ifmob | invld | invst | hotbar | sprint => exact isSext16_sext16 _

section
variable {invPresent : Bool} {w : Word} {i : Instr}

/-- When a word decodes to an instruction: its row is in the table and matches, and the fields are its operands. -/
theorem decode_eq_some_iff : decode invPresent w = some i ↔
    i.id.present invPresent = true ∧ (template i.id).matches w = true ∧ extract i.id w = i := by
  refine ⟨decode_eq_some, ?_⟩
  rintro ⟨hpresent, hmatches, hextract⟩
  rw [decode_of_matches hpresent hmatches, hextract]

theorem wellFormed_of_decode (h : decode invPresent w = some i) : i.wellFormed = true := by
  obtain ⟨-, -, hextract⟩ := decode_eq_some h
  rw [← hextract, wellFormed_extract]

/-- The word of a well-formed instruction of the table decodes to it. -/
theorem decode_encode (hpresent : i.id.present invPresent = true) (hwf : i.wellFormed = true) :
    decode invPresent (encode i) = some i :=
  decode_eq_some_iff.mpr ⟨hpresent, Laws.EncodeMatchesTemplate.all i, Laws.ExtractInvertsEncode.all i hwf⟩

/-! ### From the two-level view back to the flat match -/

/-- A funct's template has that funct and opcode 0 in its row (30_encoding.md R110). -/
theorem pattern_of_functMap {fn : BitVec 6} {id : InstrId} (h : functMap fn.toNat = some id) :
    (template id).pattern.extractLsb' 26 6 = 0#6 ∧ (template id).pattern.extractLsb' 0 6 = fn := by
  unfold functMap at h
  split at h <;> cases h <;> exact ⟨rfl, BitVec.eq_of_toNat_eq (Eq.symm ‹_›)⟩

/-- An opcode's template has that opcode in its row (30_encoding.md R109). -/
theorem pattern_of_opcodeMap {op : BitVec 6} {id : InstrId} (h : opcodeMap op.toNat = some id) :
    (template id).pattern.extractLsb' 26 6 = op := by
  unfold opcodeMap at h
  split at h <;> cases h <;> exact BitVec.eq_of_toNat_eq (Eq.symm ‹_›)

section
variable {id : InstrId}
  (hmap : (if fieldOp w == 0#6 then functMap (fieldFn w).toNat else opcodeMap (fieldOp w).toNat) = some id)
include hmap

/-- The template the maps name for a word has the word's opcode, and under opcode 0 its funct. -/
theorem fields_of_maps : fieldOp w = (template id).pattern.extractLsb' 26 6 ∧
    (fieldOp w = 0#6 → fieldFn w = (template id).pattern.extractLsb' 0 6) := by
  split at hmap
  next hop =>
    obtain ⟨hop', hfn⟩ := pattern_of_functMap hmap
    exact ⟨(eq_of_beq hop).trans hop'.symm, fun _ => hfn.symm⟩
  next hop => exact ⟨(pattern_of_opcodeMap hmap).symm, fun h0 => absurd (beq_iff_eq.mpr h0) hop⟩

/-- A word that the maps and the fixed-zero fields accept is the encoding of the instruction extracted from it. -/
theorem encode_extract_of_maps (hzero : fixedZero id w = true) : encode (extract id w) = w := by
  obtain ⟨hop, hfn⟩ := fields_of_maps hmap
  cases id
  case add | sub | and | or | xor | slt | craft | brew =>
    exact encodeR_of_fields hop rfl rfl rfl (eq_of_beq hzero) (hfn hop)
  case smelt =>
    obtain ⟨hsh, hrt⟩ := Bool.and_eq_true_iff.mp hzero
    exact encodeR_of_fields hop rfl (eq_of_beq hrt) rfl (eq_of_beq hsh) (hfn hop)
  case j => exact encodeJ_of_fields hop (low_zext26 _).symm
  case hotbar =>
    obtain ⟨hrs, hrt⟩ := Bool.and_eq_true_iff.mp hzero
    exact encodeI_of_fields hop (eq_of_beq hrs) (eq_of_beq hrt) (imm16_sext16 _).symm
  case chat =>
    obtain ⟨hrt, himm⟩ := Bool.and_eq_true_iff.mp hzero
    exact encodeI_of_fields hop rfl (eq_of_beq hrt) (eq_of_beq himm)
  case sprint => exact encodeI_of_fields hop rfl (eq_of_beq hzero) (imm16_sext16 _).symm
  case andi | ori => exact encodeI_of_fields hop rfl rfl (imm16_zext16 _).symm
  case beq | bne | addi | lw | sw | mine | place | ifmob | invld | invst =>
    exact encodeI_of_fields hop rfl rfl (imm16_sext16 _).symm

/-- A word that the maps and the fixed-zero fields accept matches the row the maps name: every encoding matches its row. -/
theorem matches_of_maps (hzero : fixedZero id w = true) : (template id).matches w = true := by
  have hmatches := Laws.EncodeMatchesTemplate.all (extract id w)
  rwa [Laws.EncodeMatchesTemplate.Statement, extract_id, encode_extract_of_maps hmap hzero] at hmatches

end

/-- A hit of the two-level decoder is a hit of the flat match, with the same instruction (40_decoder.md R144). -/
theorem decode_of_twoLevel (h : decodeTwoLevel invPresent w = some i) : decode invPresent w = some i := by
  unfold decodeTwoLevel at h
  split at h
  next => cases h
  next id hmap =>
    obtain ⟨haccept, hi⟩ := Option.ite_none_right_eq_some.mp h
    obtain ⟨hpresent, hzero⟩ := Bool.and_eq_true_iff.mp haccept
    exact hi ▸ decode_of_matches hpresent (matches_of_maps hmap hzero)

end

/-! ### The obligations -/

/-- Settles O27: a decoded word is its instruction's encoding, which makes decode injective; an instruction's word matches
its row and gives its operands back. -/
theorem decodeAndEncodeAreInverse : Obligations.DecodeAndEncodeAreInverse := by
  unfold Obligations.DecodeAndEncodeAreInverse
  refine ⟨fun inv w i h => ⟨wellFormed_of_decode h, encode_of_decode h⟩, fun inv w w' i h h' => ?_, fun i hwf => ?_⟩
  · exact (encode_of_decode h).symm.trans (encode_of_decode h')
  · exact decode_encode i.id.present_true hwf

/-- Settles O29: each decoder's hits are the other's. -/
theorem twoLevelDecodeEqualsFlatMatch : Obligations.TwoLevelDecodeEqualsFlatMatch := by
  unfold Obligations.TwoLevelDecodeEqualsFlatMatch
  intro inv w
  ext i
  exact ⟨decode_of_twoLevel, decodeTwoLevel_of_decode⟩

end Sys2Proof
end

section
/-! The template table as a set of rows: the order of the rows (40_decoder.md R143, R146), the overlap test and boot's check
(R145; 60_exceptions.md R256), and the table without the Inventory (R141; 20_memory.md R76). -/

namespace Sys2Proof

/-! ### The order of the rows -/

/-- Two rows of the table that match one word are the same row. -/
theorem eq_of_matches_of_mem {invPresent : Bool} {a b : Template} {w : Word} (ha : a ∈ templateTable invPresent)
    (hb : b ∈ templateTable invPresent) (hma : a.matches w = true) (hmb : b.matches w = true) : a = b := by
  obtain ⟨-, ha⟩ := mem_templateTable.mp ha
  obtain ⟨-, hb⟩ := mem_templateTable.mp hb
  rw [ha] at hma ⊢
  rw [hb] at hmb ⊢
  rw [id_unique_of_matches hma hmb]

/-- Searching the rows in any order finds a row exactly when it is a row of the table and matches. -/
theorem matchRow_eq_some_iff {invPresent : Bool} {table : List Template} (hperm : table.Perm (templateTable invPresent))
    {w : Word} {t : Template} : matchRow table w = some t ↔ t ∈ templateTable invPresent ∧ t.matches w = true := by
  have hfound : ∀ {r}, matchRow table w = some r → r ∈ templateTable invPresent ∧ r.matches w = true := fun h =>
    ⟨hperm.mem_iff.mp (List.mem_of_find?_eq_some h), List.find?_some (p := fun r : Template => r.matches w) h⟩
  refine ⟨hfound, ?_⟩
  rintro ⟨hmem, hmatches⟩
  obtain ⟨r, hr⟩ := Option.isSome_iff_exists.mp
    (List.find?_isSome (p := fun r : Template => r.matches w).mpr ⟨t, hperm.mem_iff.mpr hmem, hmatches⟩)
  obtain ⟨hrmem, hrmatches⟩ := hfound hr
  rwa [eq_of_matches_of_mem hmem hrmem hmatches hrmatches]

/-! ### The overlap test -/

/-- Rows that agree on the bits both fix match the word that has the fixed ones of both. -/
theorem matches_or_of_agree {a b : Template} (ha : a.pattern &&& a.mask = a.pattern) (hb : b.pattern &&& b.mask = b.pattern)
    (h : (a.pattern ^^^ b.pattern) &&& a.mask &&& b.mask = 0#32) : a.matches (a.pattern ||| b.pattern) = true := by
  rw [Template.matches, beq_iff_eq]
  apply BitVec.eq_of_getLsbD_eq
  intro k _
  have ha := congrArg (BitVec.getLsbD · k) ha
  have hb := congrArg (BitVec.getLsbD · k) hb
  have h := congrArg (BitVec.getLsbD · k) h
  simp only [BitVec.getLsbD_and, BitVec.getLsbD_or, BitVec.getLsbD_xor, BitVec.getLsbD_zero] at ha hb h ⊢
  grind

/-- The overlap test does not depend on which row comes first. -/
theorem Template.agree_comm (a b : Template) :
    (a.pattern ^^^ b.pattern) &&& a.mask &&& b.mask = (b.pattern ^^^ a.pattern) &&& b.mask &&& a.mask := by
  rw [BitVec.xor_comm, BitVec.and_assoc, BitVec.and_comm a.mask, ← BitVec.and_assoc]

/-- Some word matches both rows exactly when no bit that both fix differs (40_decoder.md R145). -/
theorem exists_matches_both_iff {a b : Template} (ha : a.pattern &&& a.mask = a.pattern)
    (hb : b.pattern &&& b.mask = b.pattern) :
    (∃ w, a.matches w = true ∧ b.matches w = true) ↔ (a.pattern ^^^ b.pattern) &&& a.mask &&& b.mask = 0#32 := by
  constructor
  · rintro ⟨w, hma, hmb⟩
    exact eq_of_beq (overlaps_of_matches hma hmb)
  · intro h
    have h' := a.agree_comm b ▸ h
    exact ⟨_, matches_or_of_agree ha hb h, BitVec.or_comm b.pattern _ ▸ matches_or_of_agree hb ha h'⟩

/-- The table check finds no conflict exactly when every two rows differ in a bit both fix. -/
theorem tableConflict_eq_none_iff {table : List Template} : tableConflict table = none ↔
    table.Pairwise (fun a b => (a.pattern ^^^ b.pattern) &&& a.mask &&& b.mask ≠ 0#32) := by
  induction table with
  | nil => simp [tableConflict]
  | cons a rest ih =>
    rw [List.pairwise_cons, ← ih, tableConflict]
    cases hfind : rest.find? (fun b => a.overlaps b) with
    | none =>
      have hdiffer : ∀ b ∈ rest, (a.pattern ^^^ b.pattern) &&& a.mask &&& b.mask ≠ 0#32 := by
        simpa [Template.overlaps] using hfind
      exact (and_iff_right hdiffer).symm
    | some b =>
      have hoverlap : a.overlaps b = true := List.find?_some (p := fun b => a.overlaps b) hfind
      have hmem := List.mem_of_find?_eq_some hfind
      exact iff_of_false nofun fun ⟨hdiffer, _⟩ => hdiffer b hmem (eq_of_beq hoverlap)

/-- A conflict names two rows of the table. -/
theorem mem_of_tableConflict {table : List Template} {a b : Template} (h : tableConflict table = some (a, b)) :
    a ∈ table ∧ b ∈ table := by
  induction table with
  | nil => cases h
  | cons c rest ih =>
    rw [tableConflict] at h
    split at h
    next d hfind =>
      cases h
      exact ⟨List.mem_cons_self, List.mem_cons_of_mem _ (List.mem_of_find?_eq_some hfind)⟩
    next =>
      obtain ⟨ha, hb⟩ := ih h
      exact ⟨List.mem_cons_of_mem _ ha, List.mem_cons_of_mem _ hb⟩

/-- Neither fixed table has a conflict (40_decoder.md R146). -/
theorem tableConflict_templateTable (invPresent : Bool) : tableConflict (templateTable invPresent) = none := by
  cases invPresent <;> decide

/-! ### Boot's check of the table (60_exceptions.md R256) -/

section
open Machine
variable {c : Cfg} {table : List Template} (hok : c.ok = true)
include hok

theorem boot_of_conflict {a b : Template} (h : tableConflict table = some (a, b)) :
    boot c table = .error (.registrationConflict a b) := by
  simp [boot, hok, h]

theorem boot_of_no_conflict (h : tableConflict table = none) : boot c table = .ok (State.resetTo c) := by
  simp [boot, hok, h]

end

/-! ### The table without the Inventory -/

/-- The identities without a row when the Inventory is absent (40_decoder.md R141). -/
theorem InstrId.present_false_iff {id : InstrId} : id.present false = true ↔ ¬ (id = .invld ∨ id = .invst) := by
  cases id <;> decide

/-! ### The obligations -/

/-- Settles O30: in any order the search finds the one row that matches. -/
theorem tableOrderNeverDecides : Obligations.TableOrderNeverDecides := by
  unfold Obligations.TableOrderNeverDecides
  intro inv w
  refine ⟨fun a ha b hb => eq_of_matches_of_mem ha hb, fun table hperm => ?_⟩
  ext t
  exact (matchRow_eq_some_iff hperm).trans (matchRow_eq_some_iff (.refl _)).symm

/-- Settles O31: the overlap test decides whether two rows share a word, and boot's check is that test on every pair. -/
theorem conflictTestIsExact : Obligations.ConflictTestIsExact := by
  unfold Obligations.ConflictTestIsExact
  refine ⟨fun a b => exists_matches_both_iff, fun c table hok => ⟨fun h => ?reject, fun h => ?accept⟩, ?fixed⟩
  case reject =>
    obtain ⟨⟨a, b⟩, hconflict⟩ := Option.ne_none_iff_exists'.mp (mt tableConflict_eq_none_iff.mp h)
    obtain ⟨ha, hb⟩ := mem_of_tableConflict hconflict
    exact ⟨a, ha, b, hb, boot_of_conflict hok hconflict⟩
  case accept => exact boot_of_no_conflict hok (tableConflict_eq_none_iff.mpr h)
  case fixed => exact fun c inv hok => boot_of_no_conflict hok (tableConflict_templateTable inv)

/-- Settles O35: whether a matched row is in the table is the only thing the Inventory decides. -/
theorem absentInventoryDropsTwoRows : Obligations.AbsentInventoryDropsTwoRows := by
  unfold Obligations.AbsentInventoryDropsTwoRows
  refine ⟨rfl, rfl, fun w => ?_⟩
  ext i
  rw [Option.bind_eq_some_iff, decode_eq_some_iff, InstrId.present_false_iff]
  constructor
  · rintro ⟨hid, hmatches, hextract⟩
    exact ⟨i, decode_eq_some_iff.mpr ⟨i.id.present_true, hmatches, hextract⟩, if_neg hid⟩
  · rintro ⟨j, hdecode, hdrop⟩
    obtain ⟨hid, hji⟩ := Option.ite_none_left_eq_some.mp hdrop
    cases hji
    obtain ⟨-, hmatches, hextract⟩ := decode_eq_some hdecode
    exact ⟨hid, hmatches, hextract⟩

end Sys2Proof
end

section
/-! The register-register instructions (41_alu_register.md): each one's result in the spec's arithmetic, and that the
instruction writes that result and changes nothing else. -/

namespace Sys2Proof.Machine

/-! ### The results, as the spec writes them (R171 to R179) -/

section
variable (x y : Word)

theorem add_eq_wrap32 : x + y = wrap32 ((uint x : Int) + uint y) := by
  simp [BitVec.ofInt_add]

theorem sub_eq_wrap32 : x - y = wrap32 ((uint x : Int) - uint y) := by
  rw [BitVec.sub_eq_add_neg, wrap32, Int.sub_eq_add_neg, BitVec.ofInt_add, BitVec.ofInt_neg]
  simp

theorem shiftLeft_three_eq_wrap32 : x <<< 3 = wrap32 ((uint x : Int) * 8) := by
  rw [BitVec.shiftLeft_eq_mul_twoPow, wrap32, BitVec.ofInt_mul, BitVec.ofInt_natCast, BitVec.ofNat_toNat,
    BitVec.setWidth_eq]
  rfl

/-- The logical right shift is the floor of the quotient. -/
theorem uint_ushiftRight_two : (uint (x >>> 2) : Int) = uint x / 4 := by
  simp [Nat.shiftRight_eq_div_pow]

/-- A word whose bits are `f` of the bits of `x` and `y` is the bitwise `f` of the two words. -/
theorem eq_ofFnLE_of_getLsbD {f : Bool → Bool → Bool} {z : Word}
    (h : ∀ k, z.getLsbD k = f (x.getLsbD k) (y.getLsbD k)) :
    z = BitVec.ofFnLE fun k : Fin 32 => f (x.getLsbD k) (y.getLsbD k) := by
  apply BitVec.eq_of_getLsbD_eq
  intro k hk
  rw [h, BitVec.getLsbD_ofFnLE, dif_pos hk]

/-- The result of `slt` (R176). -/
theorem conditionWord_signedLess : conditionWord (signedLess x y) = if sint x < sint y then 1#32 else 0#32 := by
  simp [conditionWord, signedLess]

theorem and_lowHalf : x &&& 0x0000FFFF#32 = (x.extractLsb' 0 16).setWidth 32 := by
  have hmask : x.toNat &&& 65535 = x.toNat % 65536 := Nat.and_two_pow_sub_one_eq_mod x.toNat 16
  have hlt : x.toNat % 65536 < 4294967296 := by omega
  apply BitVec.eq_of_toNat_eq
  simp [hmask, Nat.mod_eq_of_lt hlt]

/-- The result of `craft` (R177): an append is the or of the first operand, shifted, and the second. -/
theorem pack_eq_append : pack x y = x.extractLsb' 0 16 ++ y.extractLsb' 0 16 := by
  rw [pack, and_lowHalf, and_lowHalf, BitVec.append_def, BitVec.shiftLeftZeroExtend_eq, BitVec.setWidth'_eq]

/-- The result of `brew` (R178). -/
theorem mix_eq_wrap32 : mix x y = wrap32 ((uint (x ^^^ wrap32 ((uint y : Int) * 8)) : Int) + uint y / 4) := by
  rw [mix, shiftLeft_three_eq_wrap32, add_eq_wrap32, uint_ushiftRight_two]

/-- The result of `smelt` (R179). -/
theorem clampByte_eq_wrap32 : clampByte x = wrap32 (max 0 (min 255 (sint x))) := by
  unfold clampByte
  split
  next hneg => rw [max_eq_left (by omega)]; rfl
  next hnonneg =>
    split
    next hbig => rw [min_eq_left (by omega)]; rfl
    next hsmall => rw [min_eq_right (by omega), max_eq_right (by omega), wrap32, BitVec.ofInt_toInt]

end

/-- An instruction that is the write of one register completes, and that write is its whole effect (R170). -/
theorem exec_of_writeResult {i : Instr} {s : State} {d : RegIdx} {v result : Word} (hexec : exec i s = writeResult s d v)
    (hresult : v = result) : ∃ t, exec i s = .next t ∧ OnlyWritesReg s t d result := by
  subst hresult
  exact ⟨_, hexec, onlyWritesReg_commit⟩

/-! ### The obligations -/

/-- Settles O1: addition of words is addition modulo 2^32. -/
theorem addWritesWrappedSum : Obligations.AddWritesWrappedSum := by
  unfold Obligations.AddWritesWrappedSum
  exact fun rd rs rt s => ⟨exec_of_writeResult rfl (add_eq_wrap32 _ _),
    fun inv => decode_encode (i := .add rd rs rt) rfl rfl⟩

/-- Settles O2: subtraction of words is subtraction modulo 2^32. -/
theorem subWritesWrappedDifference : Obligations.SubWritesWrappedDifference := by
  unfold Obligations.SubWritesWrappedDifference
  exact fun rd rs rt s => ⟨exec_of_writeResult rfl (sub_eq_wrap32 _ _),
    fun inv => decode_encode (i := .sub rd rs rt) rfl rfl⟩

/-- Settles O3: each bit of the result is the AND of the sources' bits. -/
theorem andWritesBitwiseAnd : Obligations.AndWritesBitwiseAnd := by
  unfold Obligations.AndWritesBitwiseAnd
  exact fun rd rs rt s => ⟨exec_of_writeResult rfl (eq_ofFnLE_of_getLsbD _ _ fun _ => BitVec.getLsbD_and),
    fun inv => decode_encode (i := .and rd rs rt) rfl rfl⟩

/-- Settles O4: each bit of the result is the OR of the sources' bits. -/
theorem orWritesBitwiseOr : Obligations.OrWritesBitwiseOr := by
  unfold Obligations.OrWritesBitwiseOr
  exact fun rd rs rt s => ⟨exec_of_writeResult rfl (eq_ofFnLE_of_getLsbD _ _ fun _ => BitVec.getLsbD_or),
    fun inv => decode_encode (i := .or rd rs rt) rfl rfl⟩

/-- Settles O5: each bit of the result is the exclusive OR of the sources' bits. -/
theorem xorWritesBitwiseXor : Obligations.XorWritesBitwiseXor := by
  unfold Obligations.XorWritesBitwiseXor
  exact fun rd rs rt s => ⟨exec_of_writeResult rfl (eq_ofFnLE_of_getLsbD _ _ fun _ => BitVec.getLsbD_xor),
    fun inv => decode_encode (i := .xor rd rs rt) rfl rfl⟩

/-- Settles O6: the condition word of the signed comparison. -/
theorem sltWritesSignedComparison : Obligations.SltWritesSignedComparison := by
  unfold Obligations.SltWritesSignedComparison
  exact fun rd rs rt s => ⟨exec_of_writeResult rfl (conditionWord_signedLess _ _),
    fun inv => decode_encode (i := .slt rd rs rt) rfl rfl⟩

/-- Settles O7: the pack of two masked halves is their concatenation. -/
theorem craftPacksLowHalves : Obligations.CraftPacksLowHalves := by
  unfold Obligations.CraftPacksLowHalves
  exact fun rd rs rt s => ⟨exec_of_writeResult rfl (pack_eq_append _ _),
    fun inv => decode_encode (i := .craft rd rs rt) rfl rfl⟩

/-- Settles O8: the two shifts of the mix are the product and the quotient the spec writes. -/
theorem brewMixesSources : Obligations.BrewMixesSources := by
  unfold Obligations.BrewMixesSources
  exact fun rd rs rt s => ⟨exec_of_writeResult rfl (mix_eq_wrap32 _ _),
    fun inv => decode_encode (i := .brew rd rs rt) rfl rfl⟩

/-- Settles O9: the clamp's three cases; a word with a non-zero rt fails the row's fixed-zero field. -/
theorem smeltClampsToByte : Obligations.SmeltClampsToByte := by
  unfold Obligations.SmeltClampsToByte
  intro rd rs s
  refine ⟨exec_of_writeResult rfl (clampByte_eq_wrap32 _), fun inv => decode_encode (i := .smelt rd rs) rfl rfl,
    fun inv rt hrt => ?_⟩
  obtain ⟨-, hsmelt, -⟩ := fixedZeroFieldsTakePartInMatch inv rs rt rd 0#5 0#6 0#16
  exact hsmelt hrt

end Sys2Proof.Machine
end

section
/-! The immediate instructions (42_alu_immediate.md): the two extensions of a 16-bit field, each instruction's result in the
spec's arithmetic, and that the instruction writes that result and changes nothing else. -/

namespace Sys2Proof

/-! ### The extensions of an immediate (00_scope.md R14) -/

theorem sext16_eq_wrap32 (imm : BitVec 16) : sext16 imm = wrap32 imm.toInt := rfl

theorem zext16_eq_append (imm : BitVec 16) : zext16 imm = 0#16 ++ imm :=
  BitVec.setWidth_eq_append (by decide)

/-- A word is its upper half above its low half. -/
theorem eq_append_halves (x : Word) : x = x.extractLsb' 16 16 ++ x.extractLsb' 0 16 :=
  calc x = x.extractLsb' 0 (16 + 16) := BitVec.extractLsb'_eq_self.symm
    _ = x.extractLsb' 16 16 ++ x.extractLsb' 0 16 := (BitVec.extractLsb'_append_extractLsb'_eq_extractLsb' rfl).symm

/-! ### The register `hotbar` writes -/

/-- An accepted `HOTBAR_REG` is not register 0 (00_scope.md R9 (6)). -/
theorem Cfg.hotbarReg_ne_zero {c : Cfg} (h : c.ok = true) : c.hotbarReg ≠ 0#5 := by
  obtain ⟨-, -, -, -, -, -, -, hhotbar, -⟩ := Cfg.ok_iff.mp h
  exact hhotbar

/-! ### The results, as the spec writes them (R191 to R194) -/

section
variable (x : Word) (imm : BitVec 16)

/-- The result of `addi` (R191). -/
theorem add_sext16_eq_wrap32 : x + sext16 imm = wrap32 ((uint x : Int) + imm.toInt) := by
  simp [BitVec.ofInt_add, sext16_eq_wrap32]

/-- The result of `andi` (R192): the immediate has no upper half. -/
theorem and_zext16_eq_append : x &&& zext16 imm = 0#16 ++ (x.extractLsb' 0 16 &&& imm) := by
  conv_lhs => rw [eq_append_halves x, zext16_eq_append, BitVec.and_append, BitVec.and_zero]

/-- The result of `ori` (R193). -/
theorem or_zext16_eq_append : x ||| zext16 imm = x.extractLsb' 16 16 ++ (x.extractLsb' 0 16 ||| imm) := by
  conv_lhs => rw [eq_append_halves x, zext16_eq_append, BitVec.or_append, BitVec.or_zero]

/-- The mask of the low three bits is the residue modulo 8. -/
theorem wrap32_and_seven (n : Int) : wrap32 n &&& 7#32 = wrap32 (n % 8) := by
  apply BitVec.eq_of_toNat_eq
  have hmask (m : Nat) : m &&& 7 = m % 8 := Nat.and_two_pow_sub_one_eq_mod m 3
  rw [BitVec.toNat_and, BitVec.toNat_ofInt, BitVec.toNat_ofInt]
  rw [BitVec.toNat_ofNat, Nat.mod_eq_of_lt (by decide), hmask]
  omega

/-- The signed immediate modulo 8 is its low three bits: both readings of the field agree there. -/
theorem wrap32_toInt_emod_eight : wrap32 (imm.toInt % 8) = (imm.extractLsb' 0 3).setWidth 32 := by
  apply BitVec.eq_of_toNat_eq
  have hresidue : imm.toInt % 8 = imm.toNat % 8 := by
    rw [BitVec.toInt_eq_toNat_bmod, Int.bmod_def]
    omega
  rw [hresidue, BitVec.toNat_ofInt, BitVec.toNat_setWidth, BitVec.extractLsb'_toNat, Nat.shiftRight_zero]
  omega

end

end Sys2Proof

namespace Sys2Proof.Machine

/-- After a write that changes one register, that register holds the value, unless it is register 0. -/
theorem OnlyWritesReg.reg_self {s t : State} {d : RegIdx} {v : Word} (h : OnlyWritesReg s t d v) (hd : d ≠ 0#5) :
    t.reg d = v := by
  obtain ⟨hregs, -⟩ := h
  rw [hregs d, if_neg hd, if_pos rfl]

section
variable {invPresent : Bool} {op : BitVec 6} {rs rt : RegIdx} {imm : BitVec 16}

/-- The concatenated word of an instruction decodes to it, when the field is what its immediate is encoded as. -/
theorem decode_appendI {i : Instr} {v : Word} (himm : imm16 v = imm) (hword : encode i = encodeI op rs rt (imm16 v))
    (hpresent : i.id.present invPresent = true) (hwf : i.wellFormed = true) :
    decode invPresent (op ++ rs ++ rt ++ imm) = some i := by
  change decode invPresent (encodeI op rs rt imm) = some i
  rw [← himm, ← hword]
  exact decode_encode hpresent hwf

end

/-! ### The obligations -/

/-- Settles O10: adding the sign-extended field is adding the signed immediate modulo 2^32. -/
theorem addiAddsSignedImmediate : Obligations.AddiAddsSignedImmediate := by
  unfold Obligations.AddiAddsSignedImmediate
  exact fun rt rs imm s => ⟨exec_of_writeResult rfl (add_sext16_eq_wrap32 _ _),
    fun inv => decode_appendI (i := .addi rt rs (sext16 imm)) (imm16_sext16 imm) rfl rfl (isSext16_sext16 imm)⟩

/-- Settles O11: half by half, the upper half is ANDed with 0 and the low half with the field. -/
theorem andiMasksWithZeroExtendedImmediate : Obligations.AndiMasksWithZeroExtendedImmediate := by
  unfold Obligations.AndiMasksWithZeroExtendedImmediate
  exact fun rt rs imm s => ⟨exec_of_writeResult rfl (and_zext16_eq_append _ _),
    fun inv => decode_appendI (i := .andi rt rs (zext16 imm)) (imm16_zext16 imm) rfl rfl (isZext16_zext16 imm)⟩

/-- Settles O12: half by half, the upper half is ORed with 0 and the low half with the field. -/
theorem oriSetsZeroExtendedImmediate : Obligations.OriSetsZeroExtendedImmediate := by
  unfold Obligations.OriSetsZeroExtendedImmediate
  exact fun rt rs imm s => ⟨exec_of_writeResult rfl (or_zext16_eq_append _ _),
    fun inv => decode_appendI (i := .ori rt rs (zext16 imm)) (imm16_zext16 imm) rfl rfl (isZext16_zext16 imm)⟩

/-- Settles O13: the mask with 7 is the residue modulo 8; an accepted configuration's `HOTBAR_REG` is not register 0; a word
with a non-zero rs or rt fails one of the row's fixed-zero fields. -/
theorem hotbarWritesLowThreeBits : Obligations.HotbarWritesLowThreeBits := by
  unfold Obligations.HotbarWritesLowThreeBits
  intro imm s
  have hresult : sext16 imm &&& 7#32 = wrap32 (imm.toInt % 8) := wrap32_and_seven imm.toInt
  obtain ⟨t, hexec, hwrites⟩ := exec_of_writeResult (i := .hotbar (sext16 imm)) (s := s) rfl hresult
  refine ⟨⟨t, hexec, hwrites, wrap32_toInt_emod_eight imm, fun hok => hwrites.reg_self (Cfg.hotbarReg_ne_zero hok)⟩,
    fun inv => decode_appendI (i := .hotbar (sext16 imm)) (imm16_sext16 imm) rfl rfl (isSext16_sext16 imm),
    fun inv rs rt hne => ?_⟩
  obtain ⟨-, -, hhotbar, -⟩ := fixedZeroFieldsTakePartInMatch inv rs rt 0#5 0#5 0#6 imm
  exact hhotbar (not_and_or.mp hne)

end Sys2Proof.Machine
end

section
/-! The loads and stores (43_load_store.md): the two readings of the one addressing mode, what a committed store changes, the
fault with the instruction's own word, and for each instruction its effect in range and its AddressFault out of range. -/

namespace Sys2Proof

/-- Sign extension keeps the signed value (00_scope.md R14). -/
theorem sint_sext16 (imm : BitVec 16) : sint (sext16 imm) = imm.toInt :=
  BitVec.toInt_signExtend_of_le (by decide)

/-- A word of an Inventory instruction decodes to nothing when the Inventory is absent (20_memory.md R76). -/
theorem decode_absent_of_decode {w : Word} {i : Instr} (h : decode true w = some i) (hid : i.id = .invld ∨ i.id = .invst) :
    decode false w = none := by
  obtain ⟨-, -, hdrop⟩ := absentInventoryDropsTwoRows
  rw [hdrop, h, Option.bind_some, if_pos hid]

end Sys2Proof

namespace Sys2Proof.Machine

section
variable {s : State} {rt rs : RegIdx} {imm : BitVec 16}

/-! ### The two readings of the addressing mode (R208) -/

/-- The byte address of `lw` and `sw`. -/
theorem State.effAddr_sext16 : s.effAddr rs (sext16 imm) = wrap32 ((uint (s.reg rs) : Int) + imm.toInt) :=
  add_sext16_eq_wrap32 (s.reg rs) imm

/-- The cell index of the region instructions. -/
theorem State.cellIndex_sext16 : s.cellIndex rs (sext16 imm) = sint (s.reg rs) + imm.toInt := by
  rw [State.cellIndex, sint_sext16]

/-! ### The committed store (20_memory.md R64, R77) -/

/-- A committed cell write changes the four bytes of its word and the PC only. -/
theorem onlyStores_commit {w : CellWrite} (hwf : Memory.wf (s.mem w.region)) :
    OnlyStores s (s.commit { cell := some w }) w.region w.addr w.value := by
  have hbyte (b : Nat) : (s.commit { cell := some w }).readByte w.region b =
      if w.addr ≤ b ∧ b < w.addr + 4 then byteOf w.value (b - w.addr) else s.readByte w.region b := by
    rw [State.readByte_commit s _ _ b hwf]
    simp only [true_and]
  refine ⟨⟨fun k hk => ?_, fun r b houtside => ?_⟩, fun r => ?_, State.pcNext_eq, by simp, by simp⟩
  · rw [hbyte, if_pos (by omega), Nat.add_sub_cancel_left, byteOf]
  · by_cases hr : r = w.region
    · subst hr
      rw [hbyte, if_neg fun hin => houtside ⟨rfl, hin⟩]
    · rw [State.readByte, State.commit_mem, State.applyCell_mem, if_neg hr, State.readByte]
  · rw [State.commit_reg, State.applyReg_none]

/-- An instruction that is a store completes when its access primitive answers a write, and that write is its whole effect
(R200). -/
theorem exec_of_storeWith {i : Instr} {x : Except Word CellWrite} {w : CellWrite} (hexec : exec i s = storeWith i s x)
    (hwrite : x = .ok w) (hwf : Memory.wf (s.mem w.region)) :
    ∃ t, exec i s = .next t ∧ OnlyStores s t w.region w.addr w.value := by
  subst hwrite
  exact ⟨_, hexec, onlyStores_commit hwf⟩

/-! ### The fault -/

/-- A listed cause makes the instruction raise AddressFault with its own word and that word's address (60_exceptions.md
R252). -/
theorem exec_of_cause_appendI {op : BitVec 6} {i : Instr} {a : Word}
    (hword : encode i = encodeI op rs rt (imm16 (sext16 imm))) (hpresent : i.id.present s.cfg.invPresent = true)
    (hcause : AddressFaultCause s a i) : exec i s = .fault (.addressFault a (op ++ rs ++ rt ++ imm) s.pc) := by
  rw [exec_of_cause hpresent hcause, hword, imm16_sext16, encodeI]

end

/-! ### The obligations -/

/-- Settles O14: `MemRead` answers the word at the effective address or that address's fault; general memory has no address
of a region's window. -/
theorem lwLoadsOrFaults : Obligations.LwLoadsOrFaults := by
  unfold Obligations.LwLoadsOrFaults
  intro rt rs imm s ea hea
  obtain rfl : ea = s.effAddr rs (sext16 imm) := hea.trans State.effAddr_sext16.symm
  refine ⟨fun haligned hvalid => ?loads, fun hfails => ?faults,
    fun inv => decode_appendI (i := .lw rt (sext16 imm) rs) (imm16_sext16 imm) rfl rfl (isSext16_sext16 imm)⟩
  case loads => exact ⟨_, exec_lw_of_memRead (State.memRead_eq_ok haligned hvalid), onlyWritesReg_commit⟩
  case faults =>
    have hmissing : (s.effAddr rs (sext16 imm)).toNat % 4 ≠ 0 ∨ s.cfg.gmValid (s.effAddr rs (sext16 imm)) = false :=
      hfails.elim id fun ⟨hok, hregion⟩ => .inr (Cfg.gmValid_eq_false_of_region hok hregion)
    exact exec_of_cause_appendI rfl rfl (addressFaultCause_lw_iff.mpr ⟨hmissing, rfl⟩)

/-- Settles O15: `MemWrite` answers the write at the effective address or that address's fault. -/
theorem swStoresOrFaults : Obligations.SwStoresOrFaults := by
  unfold Obligations.SwStoresOrFaults
  intro rt rs imm s hwf ea hea
  obtain rfl : ea = s.effAddr rs (sext16 imm) := hea.trans State.effAddr_sext16.symm
  refine ⟨fun haligned hvalid => ?stores, fun hfails => ?faults,
    fun inv => decode_appendI (i := .sw rt (sext16 imm) rs) (imm16_sext16 imm) rfl rfl (isSext16_sext16 imm)⟩
  case stores => exact exec_of_storeWith rfl (State.memWrite_eq_ok_iff.mpr ⟨haligned, hvalid, rfl⟩) hwf
  case faults => exact exec_of_cause_appendI rfl rfl (addressFaultCause_sw_iff.mpr ⟨hfails, rfl⟩)

/-- Settles O16: `RegionRead` answers the World cell, and an index out of range is a cause of AddressFault. -/
theorem mineReadsWorldCell : Obligations.MineReadsWorldCell := by
  unfold Obligations.MineReadsWorldCell
  intro rt rs imm s idx hidx
  obtain rfl : idx = s.cellIndex rs (sext16 imm) := hidx.trans State.cellIndex_sext16.symm
  exact ⟨fun hlo hhi => ⟨_, exec_mine_of_regionRead (State.regionRead_eq_ok hlo hhi), onlyWritesReg_commit⟩,
    fun hout => exec_of_cause_appendI rfl rfl ⟨hout, rfl⟩,
    fun inv => decode_appendI (i := .mine rt (sext16 imm) rs) (imm16_sext16 imm) rfl rfl (isSext16_sext16 imm)⟩

/-- Settles O17: `RegionWrite` answers the write of the World cell, and an index out of range is a cause of AddressFault. -/
theorem placeWritesWorldCell : Obligations.PlaceWritesWorldCell := by
  unfold Obligations.PlaceWritesWorldCell
  intro rt rs imm s hwf idx hidx
  obtain rfl : idx = s.cellIndex rs (sext16 imm) := hidx.trans State.cellIndex_sext16.symm
  exact ⟨fun hlo hhi => exec_of_storeWith rfl ((State.regionWrite_eq_ok_iff (r := .world)).mpr ⟨hlo, hhi, rfl⟩) hwf,
    fun hout => exec_of_cause_appendI rfl rfl ⟨hout, rfl⟩,
    fun inv => decode_appendI (i := .place rt (sext16 imm) rs) (imm16_sext16 imm) rfl rfl (isSext16_sext16 imm)⟩

/-- Settles O18: `RegionRead` answers the World cell, whose sign is the result, and an index out of range is a cause of
AddressFault. -/
theorem ifmobTestsWorldCell : Obligations.IfmobTestsWorldCell := by
  unfold Obligations.IfmobTestsWorldCell
  intro rt rs imm s idx hidx
  obtain rfl : idx = s.cellIndex rs (sext16 imm) := hidx.trans State.cellIndex_sext16.symm
  refine ⟨fun hlo hhi => ⟨_, exec_ifmob_of_regionRead (State.regionRead_eq_ok hlo hhi), ?_⟩,
    fun hout => exec_of_cause_appendI rfl rfl ⟨hout, rfl⟩,
    fun inv => decode_appendI (i := .ifmob rt (sext16 imm) rs) (imm16_sext16 imm) rfl rfl (isSext16_sext16 imm)⟩
  rw [conditionWord_isNegative]
  exact onlyWritesReg_commit

/-- Settles O19: with the Inventory, `RegionRead` answers its cell or an index out of range is a cause of AddressFault;
without it the word's row is not in the table. -/
theorem invldReadsInventoryCell : Obligations.InvldReadsInventoryCell := by
  unfold Obligations.InvldReadsInventoryCell
  intro rt rs imm s idx hidx
  obtain rfl : idx = s.cellIndex rs (sext16 imm) := hidx.trans State.cellIndex_sext16.symm
  have hdecode : decode true (0b110011#6 ++ rs ++ rt ++ imm) = some (.invld rt (sext16 imm) rs) :=
    decode_appendI (imm16_sext16 imm) rfl rfl (isSext16_sext16 imm)
  exact ⟨fun hpresent hlo hhi =>
      ⟨_, exec_invld_of_regionRead hpresent (State.regionRead_eq_ok hlo hhi), onlyWritesReg_commit⟩,
    fun hpresent hout => exec_of_cause_appendI rfl hpresent ⟨hout, rfl⟩,
    decode_absent_of_decode hdecode (.inl rfl), hdecode⟩

/-- Settles O20: with the Inventory, `RegionWrite` answers the write of its cell or an index out of range is a cause of
AddressFault; without it the word's row is not in the table. -/
theorem invstWritesInventoryCell : Obligations.InvstWritesInventoryCell := by
  unfold Obligations.InvstWritesInventoryCell
  intro rt rs imm s hwf idx hidx
  obtain rfl : idx = s.cellIndex rs (sext16 imm) := hidx.trans State.cellIndex_sext16.symm
  have hdecode : decode true (0b110100#6 ++ rs ++ rt ++ imm) = some (.invst rt (sext16 imm) rs) :=
    decode_appendI (imm16_sext16 imm) rfl rfl (isSext16_sext16 imm)
  exact ⟨fun hpresent hlo hhi => exec_of_storeWith (i := .invst rt (sext16 imm) rs) (ifInventory_present _ _ _ hpresent)
      ((State.regionWrite_eq_ok_iff (r := .inventory)).mpr ⟨hlo, hhi, rfl⟩) hwf,
    fun hpresent hout => exec_of_cause_appendI rfl hpresent ⟨hout, rfl⟩,
    decode_absent_of_decode hdecode (.inr rfl), hdecode⟩

end Sys2Proof.Machine
end

section
/-! Control transfer (44_control_flow.md): the two targets as the spec writes them, the writes a transfer commits, and for each
transfer its PC in both directions with the frame; the PC of every step that is not redirected. -/

namespace Sys2Proof.Machine

/-! ### The targets, as the spec writes them (R224, R226) -/

section
variable (s : State) (x : Word) (imm : BitVec 16) (tgt : BitVec 26)

/-- Adding a wrapped integer is adding the integer modulo 2^32. -/
theorem add_wrap32 (n : Int) : x + wrap32 n = wrap32 (uint x + n) := by
  simp [BitVec.ofInt_add]

/-- The branch target: four times the extended field is four times the signed displacement, modulo 2^32. -/
theorem State.branchTarget_sext16 :
    s.branchTarget (sext16 imm) = wrap32 (uint (wrap32 (uint s.pc + 4)) + 4 * imm.toInt) := by
  have hoffset : 4#32 * sext16 imm = wrap32 (4 * imm.toInt) := (BitVec.ofInt_mul 4 imm.toInt).symm
  rw [State.branchTarget, State.pcNext_eq, hoffset, add_wrap32]

/-- A word is its top four bits, the 26 below them and the two lowest. -/
theorem eq_append_jumpFields : x = x.extractLsb' 28 4 ++ x.extractLsb' 2 26 ++ x.extractLsb' 0 2 :=
  calc x = x.extractLsb' 0 (4 + 26 + 2) := BitVec.extractLsb'_eq_self.symm
    _ = x.extractLsb' 2 (4 + 26) ++ x.extractLsb' 0 2 := (BitVec.extractLsb'_append_extractLsb'_eq_extractLsb' rfl).symm
    _ = x.extractLsb' 28 4 ++ x.extractLsb' 2 26 ++ x.extractLsb' 0 2 :=
      congrArg (· ++ x.extractLsb' 0 2) (BitVec.extractLsb'_append_extractLsb'_eq_extractLsb' rfl).symm

/-- The segment mask keeps the top four bits. -/
theorem and_segmentMask : x &&& 0xF0000000#32 = x.extractLsb' 28 4 ++ 0#26 ++ 0#2 := by
  have hmask : 0xF0000000#32 = BitVec.allOnes 4 ++ 0#26 ++ 0#2 := rfl
  conv_lhs => rw [eq_append_jumpFields x, hmask, BitVec.and_append, BitVec.and_append, BitVec.and_allOnes, BitVec.and_zero,
    BitVec.and_zero]

/-- The shifted target has its four top bits and its two low bits 0. -/
theorem zext26_shiftLeft_two : zext26 tgt <<< 2 = 0#4 ++ tgt ++ 0#2 := by
  have hfields : (0#4 ++ tgt ++ 0#2).toNat = tgt.toNat <<< 2 := by
    rw [BitVec.toNat_append, BitVec.toNat_append]
    simp
  apply BitVec.eq_of_toNat_eq
  rw [hfields]
  simp [zext26, Nat.shiftLeft_eq]
  omega

/-- The jump target: the OR of two words that overlap nowhere is their fields side by side. -/
theorem State.jumpTarget_zext26 :
    s.jumpTarget (zext26 tgt) = (wrap32 (uint s.pc + 4)).extractLsb' 28 4 ++ tgt ++ 0#2 := by
  rw [State.jumpTarget, State.pcNext_eq, and_segmentMask, zext26_shiftLeft_two, BitVec.or_append, BitVec.or_append,
    BitVec.or_zero, BitVec.zero_or, BitVec.or_zero]

end

/-! ### The words of the transfers (30_encoding.md R105) -/

theorem decode_appendJ (invPresent : Bool) (tgt : BitVec 26) :
    decode invPresent (0b000010#6 ++ tgt) = some (.j (zext26 tgt)) := by
  have hword : encode (.j (zext26 tgt)) = 0b000010#6 ++ tgt := congrArg (encodeJ 0b000010#6) (low_zext26 tgt)
  rw [← hword]
  exact decode_encode rfl (isZext26_zext26 tgt)

/-! ### What a transfer commits (R222, R223) -/

section
variable {s : State} {d : Delta}

theorem getD_redirectIf (taken : Bool) (target next : Word) :
    (redirectIf taken target).getD next = if taken then target else next := by
  cases taken <;> rfl

theorem sameMemory_commit (hcell : d.cell = none) : SameMemory s (s.commit d) := by
  intro r a
  rw [State.readByte, State.commit_mem, hcell, State.applyCell_none, State.readByte]

theorem sameRegs_commit (hreg : d.reg = none) : SameRegs s (s.commit d) := by
  intro r
  rw [State.commit_reg, hreg, State.applyReg_none]

theorem regsAfterWrite_commit {rd : RegIdx} {v : Word} (hreg : d.reg = some (rd, v)) :
    RegsAfterWrite s (s.commit d) rd v := by
  intro r
  rw [State.commit_reg, hreg, State.applyReg_some, State.reg_setReg]

/-- A committed redirect changes the PC only. -/
theorem onlySetsPc_commit (redirect : Option Word) :
    OnlySetsPc s (s.commit { redirect := redirect }) (redirect.getD s.pcNext) :=
  ⟨rfl, sameRegs_commit rfl, sameMemory_commit rfl, by simp, by simp⟩

/-- The PC a conditional transfer commits, taken or not (R224, R225, R227). -/
theorem branchPc_eq {taken : Bool} {imm : BitVec 16} {p : Prop} [Decidable p] (htaken : taken = true ↔ p) :
    (redirectIf taken (s.branchTarget (sext16 imm))).getD s.pcNext =
      if p then wrap32 (uint (wrap32 (uint s.pc + 4)) + 4 * imm.toInt) else wrap32 (uint s.pc + 4) := by
  rw [getD_redirectIf, State.branchTarget_sext16, State.pcNext_eq]
  simp only [htaken]

/-- A conditional transfer that writes no register completes, and the PC is its whole effect (R224, R225). -/
theorem exec_of_branch {i : Instr} {taken : Bool} {imm : BitVec 16} {p : Prop} [Decidable p]
    (hexec : exec i s = .next (s.commit { redirect := redirectIf taken (s.branchTarget (sext16 imm)) }))
    (htaken : taken = true ↔ p) :
    ∃ t, exec i s = .next t ∧ OnlySetsPc s t
      (if p then wrap32 (uint (wrap32 (uint s.pc + 4)) + 4 * imm.toInt) else wrap32 (uint s.pc + 4)) := by
  rw [← branchPc_eq htaken]
  exact ⟨_, hexec, onlySetsPc_commit _⟩

end

/-! ### The obligations -/

/-- Settles O21: the redirect is taken exactly when the two registers hold the same word. -/
theorem beqBranchesOnEqual : Obligations.BeqBranchesOnEqual := by
  unfold Obligations.BeqBranchesOnEqual
  exact fun rs rt imm s => ⟨exec_of_branch rfl beq_iff_eq,
    fun inv => decode_appendI (i := .beq rs rt (sext16 imm)) (imm16_sext16 imm) rfl rfl (isSext16_sext16 imm)⟩

/-- Settles O22: the redirect is taken exactly when the two registers hold different words. -/
theorem bneBranchesOnDifferent : Obligations.BneBranchesOnDifferent := by
  unfold Obligations.BneBranchesOnDifferent
  exact fun rs rt imm s => ⟨exec_of_branch rfl bne_iff_ne,
    fun inv => decode_appendI (i := .bne rs rt (sext16 imm)) (imm16_sext16 imm) rfl rfl (isSext16_sext16 imm)⟩

/-- Settles O23: the redirect is always taken, and its target's two parts do not overlap. -/
theorem jumpKeepsSegmentOfNextPc : Obligations.JumpKeepsSegmentOfNextPc := by
  unfold Obligations.JumpKeepsSegmentOfNextPc
  intro tgt s
  rw [← State.jumpTarget_zext26]
  exact ⟨⟨_, rfl, onlySetsPc_commit (some (s.jumpTarget (zext26 tgt)))⟩, fun inv => decode_appendJ inv tgt⟩

/-- Settles O24: the one difference is both the value written and the value tested; a word with a non-zero rt fails the
row's fixed-zero field. -/
theorem sprintDecrementsThenBranches : Obligations.SprintDecrementsThenBranches := by
  unfold Obligations.SprintDecrementsThenBranches
  intro rs imm s v hv
  obtain rfl : v = s.reg rs - 1#32 := hv.trans (sub_one_eq (s.reg rs))
  refine ⟨⟨_, rfl, regsAfterWrite_commit rfl, branchPc_eq bne_iff_ne, sameMemory_commit rfl, by simp, by simp⟩,
    fun inv => decode_appendI (i := .sprint rs (sext16 imm)) (imm16_sext16 imm) rfl rfl (isSext16_sext16 imm),
    fun inv rt hrt => ?_⟩
  obtain ⟨-, -, -, -, hsprint⟩ := fixedZeroFieldsTakePartInMatch inv rs rt 0#5 0#5 0#6 imm
  exact hsprint hrt

/-- Settles O50: an instruction commits a redirect only in the redirected state. -/
theorem sequentialUnlessRedirected : Obligations.SequentialUnlessRedirected := by
  unfold Obligations.SequentialUnlessRedirected
  intro i s t hexec hnot
  obtain ⟨d, rfl, hd⟩ := exec_next hexec
  have hnone : d.redirect = none := Option.not_isSome_iff_eq_none.mp fun hsome => hnot (hd.redirects hsome)
  rw [State.commit_pc, hnone, Option.getD_none, State.pcNext_eq]

end Sys2Proof.Machine
end

section
/-! The environment (45_system.md): the digits of `chat`'s text are the library's decimal digits, most significant first, so
the text is the numeral of R241; what `chat` commits (R242). -/

namespace Sys2Proof.Machine

/-! ### The digits of a numeral (R241) -/

/-- The values of the digits that `decDigits` writes as bytes: zero has the single digit 0. -/
def numeralDigits (n : Nat) : List Nat := if n = 0 then [0] else (Nat.digits 10 n).reverse

@[simp] theorem numeralDigits_zero : numeralDigits 0 = [0] := rfl

section
variable {n : Nat}

theorem numeralDigits_of_ne_zero (hn : n ≠ 0) : numeralDigits n = (Nat.digits 10 n).reverse := if_neg hn

theorem numeralDigits_of_lt_ten (hn : n < 10) : numeralDigits n = [n] := by
  by_cases h0 : n = 0
  · rw [h0, numeralDigits_zero]
  · rw [numeralDigits_of_ne_zero h0, Nat.digits_of_lt 10 n h0 hn, List.reverse_singleton]

/-- Beyond one digit, the last digit follows those of the quotient. -/
theorem numeralDigits_of_ten_le (hn : 10 ≤ n) : numeralDigits n = numeralDigits (n / 10) ++ [n % 10] := by
  rw [numeralDigits_of_ne_zero (by omega), numeralDigits_of_ne_zero (by omega),
    Nat.digits_eq_cons_digits_div (by decide) (by omega), List.reverse_cons]

/-- With enough fuel, `decDigits` writes all the digits. -/
theorem decDigits_eq_map_digitByte {fuel : Nat} (hn : n < 10 ^ (fuel + 1)) :
    decDigits (fuel + 1) n = (numeralDigits n).map digitByte := by
  induction fuel generalizing n with
  | zero =>
    have hlt : n < 10 := hn
    rw [decDigits, if_pos hlt, numeralDigits_of_lt_ten hlt, List.map_singleton]
  | succ fuel ih =>
    rw [decDigits]
    split
    next hlt => rw [numeralDigits_of_lt_ten hlt, List.map_singleton]
    next hge =>
      have hquot : n / 10 < 10 ^ (fuel + 1) := Nat.div_lt_of_lt_mul (by rwa [← pow_succ'])
      rw [ih hquot, numeralDigits_of_ten_le (not_lt.mp hge), List.map_append, List.map_singleton]

variable (n)

theorem numeralDigits_ne_nil : numeralDigits n ≠ [] := by
  by_cases hn : n = 0
  · simp [hn]
  · simpa [numeralDigits_of_ne_zero hn, Nat.digits_eq_nil_iff_eq_zero] using hn

theorem lt_ten_of_mem_numeralDigits : ∀ d ∈ numeralDigits n, d < 10 := by
  by_cases hn : n = 0
  · simp [hn]
  · rw [numeralDigits_of_ne_zero hn]
    exact fun d hd => Nat.digits_lt_base (by decide) (List.mem_reverse.mp hd)

/-- No leading zero: the most significant digit of a non-zero number is not 0. -/
theorem numeralDigits_eq_zero_of_head : (numeralDigits n).head? = some 0 → numeralDigits n = [0] := by
  by_cases hn : n = 0
  · simp [hn]
  · intro hhead
    rw [numeralDigits_of_ne_zero hn, List.head?_reverse,
      List.getLast?_eq_some_getLast (Nat.digits_ne_nil_iff_ne_zero.mpr hn)] at hhead
    exact absurd (Option.some.inj hhead) (Nat.getLast_digit_ne_zero 10 hn)

/-- Read from the most significant digit on, the digits have the value of the number. -/
theorem foldl_numeralDigits : (numeralDigits n).foldl (fun m d => 10 * m + d) 0 = n := by
  by_cases hn : n = 0
  · simp [hn]
  · rw [numeralDigits_of_ne_zero hn, List.foldl_reverse]
    calc (Nat.digits 10 n).foldr (fun d m => 10 * m + d) 0
        = (Nat.digits 10 n).foldr (fun d m => d + 10 * m) 0 := by simp only [Nat.add_comm]
      _ = Nat.ofDigits 10 (Nat.digits 10 n) := (Nat.ofDigits_eq_foldr 10 _).symm
      _ = n := Nat.ofDigits_digits 10 n

variable {n}

theorem length_numeralDigits_le {k : Nat} (hk : 0 < k) (hn : n < 10 ^ k) : (numeralDigits n).length ≤ k := by
  by_cases h0 : n = 0
  · rwa [h0, numeralDigits_zero, List.length_singleton]
  · rw [numeralDigits_of_ne_zero h0, List.length_reverse]
    exact (Nat.digits_length_le_iff (by decide) n).mpr hn

end

/-! ### The numeral of a word (R241) -/

section
variable (v : Word)

/-- A magnitude is 2^31 at most, so ten digits are enough. -/
theorem natAbs_sint_lt : (sint v).natAbs < 10 ^ 10 := by
  rw [sint]
  have hlow := BitVec.le_toInt v
  have hhigh := BitVec.toInt_lt (x := v)
  omega

theorem decNumeral_eq : decNumeral v =
    (if sint v < 0 then [0x2D#8] else []) ++ (numeralDigits (sint v).natAbs).map digitByte := by
  rw [decNumeral, decDigits_eq_map_digitByte (natAbs_sint_lt v)]

/-- The numeral has 1 to 11 bytes: a sign at most and one to ten digits. -/
theorem length_decNumeral : 1 ≤ (decNumeral v).length ∧ (decNumeral v).length ≤ 11 := by
  have hpos := List.length_pos_iff.mpr (numeralDigits_ne_nil (sint v).natAbs)
  have hten := length_numeralDigits_le (by decide) (natAbs_sint_lt v)
  rw [decNumeral_eq, List.length_append, List.length_map]
  split <;> simp only [List.length_singleton, List.length_nil] <;> omega

end

/-! ### The obligations -/

/-- Settles O25: the step commits an appended text and nothing else; a word with a non-zero rt or imm16 fails one of the
row's fixed-zero fields. -/
theorem chatAppendsDecimalText : Obligations.ChatAppendsDecimalText := by
  unfold Obligations.ChatAppendsDecimalText
  intro rs s
  refine ⟨⟨_, rfl, by simp, sameRegs_commit rfl, sameMemory_commit rfl, State.pcNext_eq, by simp⟩,
    fun inv => decode_encode (i := .chat rs) rfl rfl, fun inv rt imm hne => ?_⟩
  obtain ⟨-, -, -, hchat, -⟩ := fixedZeroFieldsTakePartInMatch inv rs rt 0#5 0#5 0#6 imm
  exact hchat (not_and_or.mp hne)

/-- Settles O26: the digits are those of the magnitude, and ten are enough for any word. -/
theorem decimalTextIsTheNumeral : Obligations.DecimalTextIsTheNumeral := by
  unfold Obligations.DecimalTextIsTheNumeral
  intro term v
  obtain ⟨hmin, hmax⟩ := length_decNumeral v
  refine ⟨numeralDigits (sint v).natAbs, numeralDigits_ne_nil _, lt_ten_of_mem_numeralDigits _,
    numeralDigits_eq_zero_of_head _, foldl_numeralDigits _, ?text, ?atMost, ?atLeast⟩
  case text => rw [decText, decNumeral_eq]; rfl
  case atMost => rw [decText, List.length_append]; omega
  case atLeast => rw [decText, List.length_append]; omega

end Sys2Proof.Machine
end

section
/-! The two run-time faults (60_exceptions.md): a word whose row is not in the table is a DecodeMiss, an instruction of the
table raises AddressFault alone, and a clock edge that faults can be repeated. -/

namespace Sys2Proof

/-- A word of an identity that has no row in the table decodes to nothing: no other row matches it (40_decoder.md R141,
R143). -/
theorem decode_eq_none_of_absent {invPresent : Bool} {id : InstrId} {w : Word} (habsent : id.present invPresent = false)
    (hmatches : (template id).matches w = true) : decode invPresent w = none :=
  Option.eq_none_iff_forall_ne_some.mpr fun i hi => by
    obtain ⟨hpresent, himatches, -⟩ := decode_eq_some hi
    rw [id_unique_of_matches himatches hmatches, habsent] at hpresent
    cases hpresent

end Sys2Proof

namespace Sys2Proof.Machine

/-! ### The faults of an instruction of the table -/

section
variable {i : Instr} {s : State} (hpresent : i.id.present s.cfg.invPresent = true)
include hpresent

/-- The one fault an instruction of the table raises: AddressFault for a listed cause, with its own word and the PC (R252). -/
theorem exec_fault {f : Fault} (h : exec i s = .fault f) :
    ∃ a, AddressFaultCause s a i ∧ f = .addressFault a (encode i) s.pc := by
  rcases exec_cases i s with ⟨t, hnext, -⟩ | ⟨a, hcause, hfault⟩ | ⟨habsent, -⟩
  · rw [hnext] at h
    cases h
  · rw [hfault] at h
    cases h
    exact ⟨a, hcause, rfl⟩
  · simp [hpresent] at habsent

theorem exec_addressFault_iff {a w p : Word} :
    exec i s = .fault (.addressFault a w p) ↔ w = encode i ∧ p = s.pc ∧ AddressFaultCause s a i := by
  constructor
  · intro h
    obtain ⟨b, hcause, hreport⟩ := exec_fault hpresent h
    cases hreport
    exact ⟨rfl, rfl, hcause⟩
  · rintro ⟨rfl, rfl, hcause⟩
    exact exec_of_cause hpresent hcause

theorem exec_ne_decodeMiss (w p : Word) : exec i s ≠ .fault (.decodeMiss w p) := fun h => by
  obtain ⟨a, -, hreport⟩ := exec_fault hpresent h
  cases hreport

end

/-! ### The obligations -/

/-- Settles O37: a decoded word runs an instruction of the table, which never raises DecodeMiss; the words of `invld` and
`invst` match rows that are absent with the Inventory. -/
theorem decodeMissExactlyOnUnmatchedWord : Obligations.DecodeMissExactlyOnUnmatchedWord := by
  unfold Obligations.DecodeMissExactlyOnUnmatchedWord
  refine ⟨fun s w hok hpc hfetch => ?_, fun rt rs off => ⟨?_, ?_⟩⟩
  · have hmiss := step_of_decode_none hok hpc hfetch
    refine ⟨⟨fun ⟨w', p, hstep⟩ => ?_, fun hnone => ⟨w, s.pc, hmiss hnone⟩⟩, hmiss⟩
    refine Option.eq_none_iff_forall_ne_some.mpr fun i hdecode => ?_
    obtain ⟨hpresent, -, -⟩ := decode_eq_some hdecode
    rw [step_of_decode_some hok hpc hfetch hdecode] at hstep
    exact exec_ne_decodeMiss hpresent w' p hstep
  · exact decode_eq_none_of_absent rfl (Laws.EncodeMatchesTemplate.invld rt off rs)
  · exact decode_eq_none_of_absent rfl (Laws.EncodeMatchesTemplate.invst rt off rs)

/-- Settles O38: the step runs the decoded instruction, whose encoding is the fetched word. -/
theorem addressFaultExactlyOnListedCauses : Obligations.AddressFaultExactlyOnListedCauses := by
  unfold Obligations.AddressFaultExactlyOnListedCauses
  intro s w i hok hpc hfetch hdecode a w' p
  obtain ⟨hpresent, -, -⟩ := decode_eq_some hdecode
  rw [step_of_decode_some hok hpc hfetch hdecode, exec_addressFault_iff hpresent, encode_of_decode hdecode]

/-- Settles O39: the first edge holds the state, so the second takes the same step. -/
theorem faultHoldsStateAndRepeats : Obligations.FaultHoldsStateAndRepeats := by
  unfold Obligations.FaultHoldsStateAndRepeats
  intro s f c hstep
  have hedge := clockEdge_of_fault c hstep
  exact ⟨hedge, by rw [hedge, hedge]⟩

end Sys2Proof.Machine
end

section
/-! Reset, the loading of a word and the end of a run (70_reset_and_hazards.md): what each keeps of the configuration and
of the invariant, and which step comes next. -/

namespace Sys2Proof

/-- Whether a byte belongs to general memory depends on the general-memory map alone. -/
theorem Cfg.gmByte_congr {c d : Cfg} (h : c.general = d.general) : c.gmByte = d.gmByte := by
  funext a
  rw [Cfg.gmByte, Cfg.gmByte, h]

/-- The program image can be replaced by any well-formed one: the other conditions of `CfgOK` do not speak of it (R9). -/
theorem Cfg.ok_with_prog {c : Cfg} (h : c.ok = true) {p : Program} (hp : p.wf) : { c with prog := p }.ok = true := by
  obtain ⟨hworld, hbase, hinv, hgeneral, hinit, hwithin, hpc, hhotbar, -⟩ := Cfg.ok_iff.mp h
  exact Cfg.ok_iff.mpr ⟨hworld, hbase, hinv, hgeneral, hinit, hwithin, hpc, hhotbar, hp⟩

end Sys2Proof

namespace Sys2Proof.Machine

/-! ### Placing the next word (R281, R42) -/

section
variable {s : State}

theorem State.withFetchWord_cfg_ok (hok : s.cfg.ok = true) (hpc : s.pcAligned = true) (nbits w : Nat) :
    (s.withFetchWord nbits w).cfg.ok = true := by
  obtain ⟨-, -, -, -, -, -, -, -, hprog⟩ := Cfg.ok_iff.mp hok
  exact Cfg.ok_with_prog hok (Program.wf_place hprog (wordAligned_iff.mp hpc) s.pc.isLt _)

/-- A word placed whole is the word fetched next. -/
theorem State.fetch_withFetchWord_toNat (w : Word) : (s.withFetchWord 32 w.toNat).fetch = some w := by
  rw [State.fetch_withFetchWord, Nat.mod_eq_of_lt w.isLt, BitVec.ofNat_toNat, BitVec.setWidth_eq]

end

/-! ### The outcomes of a run (R289) -/

section
variable {s : State}

theorem step_of_fetch_none (hok : s.cfg.ok = true) (hpc : s.pcAligned = true) (hfetch : s.fetch = none) :
    step s = .refused (.programEnded s.pc) := by
  simp [step, hok, hpc, hfetch]

/-- An ended program is final at the bound and before it. -/
theorem runFor_of_programEnded {p : Word} (h : step s = .refused (.programEnded p)) (n : Nat) :
    runFor n s = .final s := by
  cases n with
  | zero => rw [runFor, runHere, h, onOutcome_refused, RunResult.ofRefusal]
  | succ n => rw [runFor, runOne, h, onOutcome_refused, RunResult.ofRefusal, RunResult.andThen]

theorem runFor_succ_of_fault {f : Fault} (h : step s = .fault f) (n : Nat) : runFor (n + 1) s = .faulted s f := by
  rw [runFor, runOne, h, onOutcome_fault, RunResult.andThen]

theorem runFor_succ_of_next {t : State} (h : step s = .next t) (n : Nat) : runFor (n + 1) s = runFor n t := by
  rw [runFor, runOne, h, onOutcome_next, RunResult.andThen]

end

/-! ### The reset pulse (70_reset_and_hazards.md section 1) -/

/-- A reset pulse sets the PC to the new configuration's `RESET_PC` and empties World and Inventory; general memory stays,
inside the same map. -/
theorem State.Inv.resetPulse {s : State} (hs : s.Inv) {c : Cfg} (hok : c.ok = true) (hmap : c.general = s.cfg.general) :
    (s.resetPulse c).Inv := by
  have hstart := State.Inv.resetTo hok
  exact {
    cfg_ok := hok
    pc_aligned := hstart.pc_aligned
    gm_wf := hs.gm_wf
    world_wf := hstart.world_wf
    inv_wf := hstart.inv_wf
    gm_within := by
      rw [State.resetPulse_gm, State.resetPulse_cfg, Cfg.gmByte_congr hmap]
      exact hs.gm_within
    world_within := hstart.world_within
    inv_within := hstart.inv_within }

/-! ### The obligations -/

/-- Settles O58: placing the word replaces the program image by a well-formed one, and the next fetch presents the word. -/
theorem placedWordRunsNext : Obligations.PlacedWordRunsNext := by
  unfold Obligations.PlacedWordRunsNext
  intro s w i hok hpc hdecode
  have hok' := State.withFetchWord_cfg_ok hok hpc 32 w.toNat
  exact ⟨hok', step_of_decode_some hok' hpc (State.fetch_withFetchWord_toNat w) hdecode⟩

/-- Settles O36: the operands of a decoded instruction are fields of the word, extended as its format says. -/
theorem stepRunsDecodedInstruction : Obligations.StepRunsDecodedInstruction := by
  unfold Obligations.StepRunsDecodedInstruction
  intro s w i hok hpc hfetch hdecode
  exact ⟨wellFormed_of_decode hdecode, step_of_decode_some hok hpc hfetch hdecode⟩

/-- Settles O56: a run by the outcome of its next step. -/
theorem runsEndAsFixed : Obligations.RunsEndAsFixed := by
  unfold Obligations.RunsEndAsFixed
  refine ⟨fun s hok hpc hfetch => ?_, fun s f n hfault => ?_, fun s t n hnext => ?_⟩
  · exact runFor_of_programEnded (step_of_fetch_none hok hpc hfetch)
  · exact runFor_succ_of_fault hfault n
  · exact runFor_succ_of_next hnext n

/-- Settles O44: the start of a run by its configuration's conditions; a pulse keeps the part of the invariant that is
about general memory. -/
theorem resetMeetsInvariant : Obligations.ResetMeetsInvariant := by
  unfold Obligations.ResetMeetsInvariant
  have hreference : Cfg.reference.ok = true := by decide
  refine ⟨rfl, State.Inv.resetTo hreference, fun c hok => State.Inv.resetTo hok, fun s c hs hok hmap => ?_⟩
  exact ⟨hs.resetPulse hok hmap, State.resetPulse_gm s c⟩

end Sys2Proof.Machine
end
